-- ==== Sys2Proof/Word.lean ====
section
/-! DEFINITION. Word.lean: the two widths of the machine (00_scope.md R8): a 32-bit datapath word and an 8-bit byte. -/

namespace Sys2Proof

/-- A register, stack entry, data word or operand word: 32 bits, two's complement (R8, D1). -/
abbrev Word := BitVec 32

/-- An opcode byte, a code byte or a framebuffer cell (R8). -/
abbrev Byte := BitVec 8

end Sys2Proof
end

