-- ==== Sys2Proof/Machine/Numbers.lean ====
section
/-! DEFINITION. Machine/Numbers.lean: the fixed parameters of 00_scope.md R8, the arithmetic laws of 41_arithmetic.md R160
(wrap32, division by the scale, the fixed-point operations) and the pixel descriptor of 43_io_framebuffer.md R213. Every
function converts to exact integers, computes there, and narrows once with `wrap32`. -/

namespace Sys2Proof.Machine

/-- `SCALE` (R8, R16): a user value `u` is held as `100 * u`. -/
abbrev scale : Int := 100

/-- `DMEM_WORDS` (R8, R35). -/
abbrev dmemWords : Nat := 1024

/-- `FB_W` (R8, R36): columns of the framebuffer. -/
abbrev fbWidth : Nat := 64

/-- `FB_H` (R8, R36): rows of the framebuffer. -/
abbrev fbHeight : Nat := 64

/-- The number of framebuffer cells, 4096 (R60). -/
abbrev fbCells : Nat := fbWidth * fbHeight

/-- The largest code length, `2^31 - 1` (R9, R60, D23). -/
abbrev maxCodeLength : Nat := 2147483647

/-- `wrap32(v)` of R11: the 32-bit two's-complement value congruent to `v` modulo `2^32`. -/
def wrap32 (v : Int) : Word := BitVec.ofInt 32 v

/-- `tdiv(x, 100)` of R16 and R97: a scaled value divided by the scale, truncated toward zero. -/
def unscale (v : Word) : Int := Int.tdiv v.toInt scale

/-- `wrap32(100 * n)`: a literal or an input value scaled on entry (R95, R140, R210). -/
def scaleUp (n : Word) : Word := wrap32 (scale * n.toInt)

/-- The sum of `add` (R161). -/
def addFixed (s t : Word) : Word := wrap32 (s.toInt + t.toInt)

/-- The difference of `sub`, second minus top (R162, D5). -/
def subFixed (s t : Word) : Word := wrap32 (s.toInt - t.toInt)

/-- The product of `mul` (R163, D35): it wraps to 32 bits before the division by the scale. -/
def mulFixed (s t : Word) : Word := wrap32 (unscale (wrap32 (s.toInt * t.toInt)))

/-- The quotient of `div`, second by top, for a top that is not 0 (R164, C2): the scaled dividend wraps, the division
truncates toward zero, and the quotient wraps. -/
def divFixed (s t : Word) : Word := wrap32 (Int.tdiv (scaleUp s).toInt t.toInt)

/-- The new register value of `inc` (R166). -/
def incFixed (v : Word) : Word := wrap32 (v.toInt + scale)

/-- The root of `m` bit by bit from bit `b - 1` down, starting from `q`. -/
def isqrtFrom : Nat → Nat → Nat → Nat
  | 0, _, q => q
  | b + 1, m, q => isqrtFrom b m (if (q + 2 ^ b) * (q + 2 ^ b) ≤ m then q + 2 ^ b else q)

/-- `isqrt(m)` of R165, the largest `q` with `q*q <= m`, for every `m < 2^38` (R165 needs at most 214748364700). -/
def isqrt (m : Nat) : Nat := isqrtFrom 19 m 0

/-- The result of `sqrt` on a value that is not negative (R165, D15): the integer nearest to `sqrt(100 * v)`. -/
def sqrtFixed (v : Word) : Word :=
  let m := 100 * v.toNat
  let q := isqrt m
  wrap32 (if m - q * q > q then q + 1 else q : Nat)

/-- The framebuffer write port of R52 for one write: column, row and colour code. -/
structure Pixel where
  x : Nat
  y : Nat
  color : Nat
deriving DecidableEq, Repr

/-- The pixel descriptor of R213: the pixel it names, or none where R213 raises PixelOutOfBounds. -/
def pixelOf (d : Int) : Option Pixel :=
  if d < 0 then none
  else
    let px := Int.fdiv d 10000
    let py := Int.fmod (Int.fdiv d 10) 1000
    let c := Int.fmod d 10
    if px ≥ fbWidth ∨ py ≥ fbHeight then none
    else some { x := px.toNat, y := py.toNat, color := c.toNat }

/-- The flat index `64*y + x` of a cell (R36). -/
def Pixel.cell (p : Pixel) : Nat := fbWidth * p.y + p.x

/-- The bounds check of R66: the data index an exact integer names, or none where R66 raises MemoryOutOfBounds. -/
def dataIndex (i : Int) : Option Nat := if 0 ≤ i ∧ i < dmemWords then some i.toNat else none

/-- The register check of R94 (R24, D13): the register a register word names, or none where R94 raises InvalidRegister. -/
def regIndex (w : Word) : Option (Fin 4) :=
  if 0 ≤ w.toInt ∧ w.toInt ≤ 3 then some (Fin.ofNat 4 w.toNat) else none

/-- The target check of R181: the offset in `[0, L)` an exact integer names, or none where R181 raises
ControlTransferOutOfBounds. -/
def codeTarget (codeLength : Nat) (tgt : Int) : Option Nat :=
  if 0 ≤ tgt ∧ tgt < codeLength then some tgt.toNat else none

end Sys2Proof.Machine
end

