-- ==== Sys2Proof/Config.lean ====
section
/-! DEFINITION. Config.lean: the fault codes of 10_state.md R30 and what of the open parameters of 00_scope.md R9 is a function:
SQRT_NEG, and the values of an INPUT that does not end. CODE, STACK_CAPACITY and the rest of INPUT are plain data and stand in
State. -/

namespace Sys2Proof

/-- The nine faults of R30 and R230. Code 0, "none", is the absence of a cause. -/
inductive Cause where
  | stackUnderflow
  | stackOverflow
  | memoryOutOfBounds
  | pixelOutOfBounds
  | invalidRegister
  | divideByZero
  | unknownOpcode
  | controlTransferOutOfBounds
  | truncatedInstruction
deriving DecidableEq, Repr, Inhabited

/-- What SQRT_NEG answers for one negative operand: a signed 32-bit result, or a fault code (R9, R165). -/
inductive SqrtNegOutcome where
  | value (r : Word)
  | fault (c : Cause)
deriving DecidableEq, Repr, Inhabited

/-- `SQRT_NEG` (R9, R165, D16): the outcome of `sqrt` on a negative operand. DESIGN CHOICE (log 4): a free value. It has
no body, so nothing can be proved of what it answers. -/
opaque Config.sqrtNeg : Word → SqrtNegOutcome

/-- The values of an INPUT that does not end (R9, R53, D24), counted from 0. DESIGN CHOICE (log 3): free values. It has no
body, so what is proved of it holds for every such stream. -/
opaque Config.inputStream : Nat → Word

end Sys2Proof
end

