-- ==== Sys2Proof/Syntax.lean ====
section
/-! DEFINITION. Syntax.lean: the instructions, one constructor per row of spec/opcode_table.json (30_encoding.md R100), with
the raw operand words `w1` and `w2` of 00_scope.md R13; the mnemonics and the addressing modes (R15, R92). -/

namespace Sys2Proof

/-- The 24 mnemonics of R100 and R126 (`end` and `in` are Lean words, hence `end_` and `in_`). -/
inductive Mnemonic where
  | nop | push | pop | add | sub | mul | div | end_ | in_ | out | call | ret | sqrt | inc | pix | draw | delay
  | jmp | ja | jae | jb | jbe | je | jne
deriving DecidableEq, Repr

/-- The seven addressing modes (R15, R92). -/
inductive Mode where
  | none | number | register | ramImmed | ramReg | ramRegImmed | label
deriving DecidableEq, Repr

/-- The instructions: a mnemonic in one addressing mode, with its operand words as fetched. A register word, memory index,
pixel descriptor or target is checked when the instruction executes (R93, R103), so any word may stand here (log 12). -/
inductive Instr where
  /-- `nop`, opcode 0, R182. -/
  | nop
  /-- `push n`, opcode 1, R140. -/
  | pushN (w1 : Word)
  /-- `pop r`, opcode 2, R145. -/
  | popR (w1 : Word)
  /-- `add`, opcode 3, R161. -/
  | add
  /-- `sub`, opcode 4, R162. -/
  | sub
  /-- `mul`, opcode 5, R163. -/
  | mul
  /-- `div`, opcode 6, R164. -/
  | div
  /-- `end`, opcode 7, R183. -/
  | end_
  /-- `in`, opcode 8, R210. -/
  | in_
  /-- `out`, opcode 9, R211. -/
  | out
  /-- `call label`, opcode 10, R184. -/
  | callLabel (w1 : Word)
  /-- `push r`, opcode 11, R141. -/
  | pushR (w1 : Word)
  /-- `call n`, opcode 12, R185. -/
  | callN (w1 : Word)
  /-- `ret`, opcode 13, R186. -/
  | ret
  /-- `sqrt`, opcode 14, R165. -/
  | sqrt
  /-- `inc r`, opcode 15, R166. -/
  | incR (w1 : Word)
  /-- `pix n`, opcode 16, R212. -/
  | pixN (w1 : Word)
  /-- `pix r`, opcode 17, R214. -/
  | pixR (w1 : Word)
  /-- `draw`, opcode 18, R215. -/
  | draw
  /-- `delay n`, opcode 19, R216. -/
  | delayN (w1 : Word)
  /-- `jmp label`, opcode 20, R187. -/
  | jmpLabel (w1 : Word)
  /-- `jmp n`, opcode 21, R188. -/
  | jmpN (w1 : Word)
  /-- `ja label`, opcode 22, R190. -/
  | jaLabel (w1 : Word)
  /-- `ja n`, opcode 23, R191. -/
  | jaN (w1 : Word)
  /-- `jae label`, opcode 24, R192. -/
  | jaeLabel (w1 : Word)
  /-- `jae n`, opcode 25, R193. -/
  | jaeN (w1 : Word)
  /-- `jb label`, opcode 26, R194. -/
  | jbLabel (w1 : Word)
  /-- `jb n`, opcode 27, R195. -/
  | jbN (w1 : Word)
  /-- `jbe label`, opcode 28, R196. -/
  | jbeLabel (w1 : Word)
  /-- `jbe n`, opcode 29, R197. -/
  | jbeN (w1 : Word)
  /-- `je label`, opcode 30, R198. -/
  | jeLabel (w1 : Word)
  /-- `je n`, opcode 31, R199. -/
  | jeN (w1 : Word)
  /-- `jne label`, opcode 32, R200. -/
  | jneLabel (w1 : Word)
  /-- `jne n`, opcode 33, R201. -/
  | jneN (w1 : Word)
  /-- `push [k]`, opcode 41, R142. -/
  | pushMemK (w1 : Word)
  /-- `push [r]`, opcode 42, R143. -/
  | pushMemR (w1 : Word)
  /-- `push [r+d]`, opcode 43, R144. -/
  | pushMemRD (w1 w2 : Word)
  /-- `pop [k]`, opcode 52, R146. -/
  | popMemK (w1 : Word)
  /-- `pop [r]`, opcode 53, R147. -/
  | popMemR (w1 : Word)
  /-- `pop [r+d]`, opcode 54, R148. -/
  | popMemRD (w1 w2 : Word)
deriving DecidableEq, Repr

end Sys2Proof
end

