-- ==== Sys2Proof/Machine/State.lean ====
section
/-! DEFINITION. Machine/State.lean: the architectural state of 10_state.md R20, the run parameters of 00_scope.md R9 that are
plain data, the log of port transactions, the reasons a step can stop, and the state after reset (70_reset_and_hazards.md). -/

namespace Sys2Proof.Machine

/-- One port transaction of the block (R48, R73, R274). A frame is the framebuffer as it stands, in the form State holds. -/
inductive Event where
  /-- `in` consumed one value of the input port (R53). DEDUCED (log 10): R73 orders it among the emitted events. -/
  | input (v : Word)
  /-- `out` asserted `out_strobe` with this `out_data` (R54). -/
  | output (v : Word)
  /-- `draw` asserted `draw_strobe` and the display read these cells (R52). -/
  | display (frame : List Host.Cell)
  /-- `delay` asserted `delay_strobe` with this `delay_ms` (R55). -/
  | delay (ms : Word)
deriving DecidableEq, Repr

/-- The parameter INPUT from some point of a run on (R9, R53, D24): a sequence of values that ends, or one that does not (log 3). -/
structure InputSource where
  /-- The values that come next, in order. -/
  queued : List Word
  /-- What comes behind them: nothing, the stream has ended; or value `k` of `Config.inputStream` and all later ones. -/
  beyond : Option Nat
deriving DecidableEq, Repr

/-- A stream that ends after the given values. -/
def InputSource.ending (values : List Word) : InputSource := { queued := values, beyond := none }

/-- A stream that does not end, of which nothing is known. -/
def InputSource.endless : InputSource := { queued := [], beyond := some 0 }

/-- The machine. The fields `x` to `code` are R20's list; the three after them are the run's parameters and its port log. -/
structure State where
  /-- The general registers `x[0]` to `x[3]` (R21). -/
  x : Vector Word 4
  /-- The instruction pointer, a byte offset (R25). -/
  pc : Nat
  /-- The operand stack `S`, top first (R32, R34). -/
  stack : List Word
  /-- Data memory (R35): (index, word) pairs, in the canonical form `Memory.wf`; an unlisted word is 0 (log 8). -/
  dm : List (Nat × Word)
  /-- The framebuffer (R36): (`64*y + x`, cell) pairs, in the canonical form `Memory.wf`; an unlisted cell is 0. -/
  fb : List Host.Cell
  /-- `halted` (R29). -/
  halted : Bool
  /-- `cause` (R30): none is code 0 (log 16). -/
  cause : Option Cause
  /-- Code memory `CODE[0..L-1]` (R37); its length is `L`. -/
  code : List Byte
  /-- The parameter STACK_CAPACITY (R9, R32; log 2). No instruction writes it. -/
  stackCapacity : Nat
  /-- The parameter INPUT (R9, R53; log 3): what the input port has still to present in this run. -/
  input : InputSource
  /-- The port transactions of the run so far, oldest first (R73, R274; log 10). -/
  events : List Event
deriving DecidableEq, Repr

/-- The reasons a step answers no next state. The faults of R30 are not among them: raising one is a next state (log 5). -/
inductive Fault where
  /-- Raised by `step` on a machine that has halted: it takes no step until reset (R275). Safe (log 6). -/
  | halted
  /-- Raised by `step` on a machine stopped by a fault: it takes no step until reset (R275). Safe (log 6). -/
  | faulted (c : Cause)
  /-- Raised by `in` when the input port has no value left to present: the machine has no enabled step (R276). Safe (log 7). -/
  | waitingForInput
deriving DecidableEq, Repr

/-- An instruction this model has no meaning for. -/
inductive Refusal where
  /-- Raised by an arm of `exec` that has no meaning yet; no arm is left so. Safe. -/
  | notModelled (mnemonic : String)
deriving DecidableEq, Repr

/-- The outcome of an instruction or a step. -/
abbrev Result := Host.Outcome State Fault Refusal

/-- The state after reset of a machine whose host has loaded a code buffer, with the run's other parameters (R270, R272):
every register, data word and cell 0, `pc` 0, the stack empty, running. -/
def State.boot (code : List Byte) (input : InputSource) (capacity : Nat) : State where
  x := Vector.replicate 4 0
  pc := 0
  stack := []
  dm := []
  fb := []
  halted := false
  cause := none
  code := code
  stackCapacity := capacity
  input := input
  events := []

/-- The machine right after reset (R270). DESIGN CHOICE: no code is loaded (log 1), the input is a stream that does
not end, of which nothing is known (log 3), and the stack holds 1024 entries, the value of the spec's test vectors (log 2). -/
def State.reset : State := State.boot [] .endless 1024

end Sys2Proof.Machine
end

