-- ==== Sys2Proof/Machine/Ops.lean ====
section
/-! DEFINITION. Machine/Ops.lean: the named operations over the state (00_scope.md R12): registers, data memory,
framebuffer, the stack port, `pc`, events, and raising a fault (60_exceptions.md R231, R232). -/

namespace Sys2Proof.Machine

/-! ### Sparse memories in canonical form -/

/-- The canonical form of a memory of `size` units: addresses strictly rising and inside the memory, and no entry equal to
the 0 that an unlisted address reads as (its reset value, R35 and R36). -/
abbrev Memory.wf {w : Nat} (size : Nat) (m : List (Nat × BitVec w)) : Prop :=
  m.Pairwise (fun a b => a.1 < b.1) ∧ ∀ c ∈ m, c.1 < size ∧ c.2 ≠ 0#w

/-- The unit at an address: 0 where none is listed (R35, R36). -/
def Memory.read {w : Nat} : List (Nat × BitVec w) → Nat → BitVec w
  | [], _ => 0#w
  | (b, u) :: m, a => if b = a then u else Memory.read m a

/-- Write one unit: writing 0 removes the entry, so that equal memories are equal lists. -/
def Memory.write {w : Nat} : List (Nat × BitVec w) → Nat → BitVec w → List (Nat × BitVec w)
  | [], a, v => if v = 0#w then [] else [(a, v)]
  | (b, u) :: m, a, v =>
    if a < b then (if v = 0#w then (b, u) :: m else (a, v) :: (b, u) :: m)
    else if a = b then (if v = 0#w then m else (a, v) :: m)
    else (b, u) :: Memory.write m a v

/-! ### Reads and writes of the state (R12) -/

/-- `x[r]`. -/
def State.reg (s : State) (r : Fin 4) : Word := s.x[r]

/-- `x[r] <- v`. -/
def State.setReg (s : State) (r : Fin 4) (v : Word) : State := { s with x := s.x.set r v }

/-- `DM[i]`. -/
def State.readData (s : State) (i : Nat) : Word := Memory.read s.dm i

/-- `DM[i] <- v`: one whole word (R64). -/
def State.writeData (s : State) (i : Nat) (v : Word) : State := { s with dm := Memory.write s.dm i v }

/-- The framebuffer cell at a flat index (R36). -/
def State.readCell (s : State) (i : Nat) : Byte := Memory.read s.fb i

/-- The framebuffer write port (R52, R67): the colour code, zero-extended to 8 bits, into one cell. -/
def State.writePixel (s : State) (p : Pixel) : State :=
  { s with fb := Memory.write s.fb p.cell (BitVec.ofNat 8 p.color) }

/-- `pc <- target`. -/
def State.setPc (s : State) (target : Nat) : State := { s with pc := target }

/-- The stack replaced. -/
def State.setStack (s : State) (stack : List Word) : State := { s with stack := stack }

/-- `Emit(port, value)` (R12, R52 to R55): one more port transaction, after all earlier ones (R73). -/
def State.emit (s : State) (e : Event) : State := { s with events := s.events ++ [e] }

/-- The input port after it has presented a value: what it has still to present (R53). -/
def State.setInput (s : State) (rest : InputSource) : State := { s with input := rest }

/-- The next value of the input port with what is still to come behind it; none where the stream has ended (R53, R210). -/
def InputSource.present (i : InputSource) : Option (Word × InputSource) :=
  match i.queued, i.beyond with
  | n :: later, _ => some (n, { i with queued := later })
  | [], some k => some (Config.inputStream k, { i with beyond := some (k + 1) })
  | [], none => none

/-- `halted <- 1` (R29). -/
def State.halt (s : State) : State := { s with halted := true }

/-- `cause <- c` (R30). -/
def State.setCause (s : State) (c : Cause) : State := { s with cause := some c }

/-- `code_len`, the code length `L` (R9, R49). -/
def State.codeLength (s : State) : Nat := s.code.length

/-! ### Raising a fault -/

/-- `raise Fault(c)` (R231, R232): it writes `cause` and nothing else; `pc` keeps the instruction's offset and the machine is
stopped from then on. There is no vector and no handler (R234), and no return from it (R235). It is a next state, since the
status register changes (log 5). -/
def raise (c : Cause) (s : State) : Result := .next (s.setCause c)

/-! ### The next-pc multiplexer (R112) -/

/-- The default advance past an instruction of the given length. -/
def State.advance (s : State) (len : Nat) : State := s.setPc (s.pc + len)

/-- A control transfer: the default advance is not applied (R180). -/
def State.transfer (s : State) (target : Nat) : State := s.setPc target

/-! ### The stack port (R33, R51) -/

/-- `push(v)`: none where the port answers not ok, which is a full stack. -/
def State.push (s : State) (v : Word) : Option State :=
  if s.stack.length < s.stackCapacity then some (s.setStack (v :: s.stack)) else none

/-- `pop()`: none where the stack is empty. -/
def State.pop (s : State) : Option (Word × State) :=
  match s.stack with
  | [] => none
  | v :: rest => some (v, s.setStack rest)

/-- `peek(k)`, the entry `k` places below the top: none where the stack does not hold it. -/
def State.peek (s : State) (k : Nat) : Option Word := s.stack[k]?

/-- Push and go on, or raise StackOverflow with the state untouched (R33, R232). -/
def pushing (v : Word) (s : State) (k : State → Result) : Result :=
  match s.push v with
  | none => raise .stackOverflow s
  | some t => k t

/-- Pop and go on with the value and the state after it, or raise StackUnderflow (R33). -/
def popping (s : State) (k : Word → State → Result) : Result :=
  match s.pop with
  | none => raise .stackUnderflow s
  | some (v, t) => k v t

/-- Go on with the top entry, still on the stack, or raise StackUnderflow (R33). -/
def peekTop (s : State) (k : Word → Result) : Result :=
  match s.peek 0 with
  | none => raise .stackUnderflow s
  | some t => k t

/-- Go on with the top and the second entry, still on the stack, or raise StackUnderflow where the stack holds fewer than two
(R33, R189). -/
def peekTopTwo (s : State) (k : Word → Word → Result) : Result :=
  match s.peek 0, s.peek 1 with
  | some t, some u => k t u
  | _, _ => raise .stackUnderflow s

/-- The top `n` entries replaced by one value. -/
def State.replaceTop (s : State) (n : Nat) (v : Word) : State := s.setStack (v :: s.stack.drop n)

end Sys2Proof.Machine
end

