-- ==== Sys2Proof/Machine/Operands.lean ====
section
/-! DEFINITION. Machine/Operands.lean: the operand decode of 30_encoding.md R93 to R99: each check raises its fault on the
untouched state, in the order of 60_exceptions.md R233, and goes on with the operand otherwise. -/

namespace Sys2Proof.Machine

/-- `REGISTER` (R94): go on with the register a register word names, or raise InvalidRegister. -/
def withReg (w : Word) (s : State) (k : Fin 4 → Result) : Result :=
  match regIndex w with
  | none => raise .invalidRegister s
  | some r => k r

/-- The bounds check of R66 on an effective index, computed exactly: go on with it, or raise MemoryOutOfBounds. -/
def withIndex (i : Int) (s : State) (k : Nat → Result) : Result :=
  match dataIndex i with
  | none => raise .memoryOutOfBounds s
  | some n => k n

/-- `RAM_IMMED` (R96): the word is the index. -/
def withRamImmed (w1 : Word) (s : State) (k : Nat → Result) : Result := withIndex w1.toInt s k

/-- The effective index of `RAM_REG` (R97). -/
def ramRegIndex (s : State) (r : Fin 4) : Int := unscale (s.reg r)

/-- `RAM_REG` (R97): the register's content divided by the scale is the index. -/
def withRamReg (w1 : Word) (s : State) (k : Nat → Result) : Result :=
  withReg w1 s fun r => withIndex (ramRegIndex s r) s k

/-- The effective index of `RAM_REG_IMMED` (R98, D34), an exact sum. -/
def ramRegImmedIndex (s : State) (r : Fin 4) (disp : Word) : Int := unscale (s.reg r) + disp.toInt

/-- `RAM_REG_IMMED` (R98): the register's content divided by the scale, plus the displacement. -/
def withRamRegImmed (w1 w2 : Word) (s : State) (k : Nat → Result) : Result :=
  withReg w1 s fun r => withIndex (ramRegImmedIndex s r w2) s k

/-- The target check of R181 on an exact target: go on with the offset, or raise ControlTransferOutOfBounds. -/
def withTarget (tgt : Int) (s : State) (k : Nat → Result) : Result :=
  match codeTarget s.codeLength tgt with
  | none => raise .controlTransferOutOfBounds s
  | some n => k n

/-- The descriptor check of R213: go on with the pixel, or raise PixelOutOfBounds. -/
def withPixel (d : Int) (s : State) (k : Pixel → Result) : Result :=
  match pixelOf d with
  | none => raise .pixelOutOfBounds s
  | some p => k p

end Sys2Proof.Machine
end

