-- ==== Sys2Proof/Machine/Arithmetic.lean ====
section
/-! DEFINITION. Machine/Arithmetic.lean: add, sub, mul, div, sqrt and inc (41_arithmetic.md). -/

namespace Sys2Proof.Machine

/-- Replace the top two entries `t` (top) and `u` (second) by `f u t` and advance past a one-byte instruction. -/
def binary (f : Word → Word → Word) (s : State) : Result :=
  peekTopTwo s fun t u => .next ((s.replaceTop 2 (f u t)).advance 1)

/-- `add` (R161). -/
def execAdd (s : State) : Result := binary addFixed s

/-- `sub` (R162). -/
def execSub (s : State) : Result := binary subFixed s

/-- `mul` (R163). -/
def execMul (s : State) : Result := binary mulFixed s

/-- `div` (R164): a top of 0 raises DivideByZero, after the depth check. -/
def execDiv (s : State) : Result :=
  peekTopTwo s fun t u =>
    if t = 0 then raise .divideByZero s
    else .next ((s.replaceTop 2 (divFixed u t)).advance 1)

/-- `sqrt` (R165): a negative operand takes what SQRT_NEG answers, a value or a precise fault (C7, log 4). -/
def execSqrt (s : State) : Result :=
  peekTop s fun v =>
    if 0 ≤ v.toInt then .next ((s.replaceTop 1 (sqrtFixed v)).advance 1)
    else
      match Config.sqrtNeg v with
      | .value r => .next ((s.replaceTop 1 r).advance 1)
      | .fault c => raise c s

/-- `inc r` (R166). -/
def execIncR (w1 : Word) (s : State) : Result :=
  withReg w1 s fun r => .next ((s.setReg r (incFixed (s.reg r))).advance 5)

end Sys2Proof.Machine
end

