-- ==== Sys2Proof/Machine/Flags.lean ====
section
/-! DEFINITION. Machine/Flags.lean: the machine has no flag register and no condition codes (10_state.md R28); what stands in
their place is the comparison of a conditional jump (42_control_transfer.md R189), computed when the jump executes. -/

namespace Sys2Proof.Machine

/-- The six conditions (R189 to R201). -/
inductive Cond where
  | a | ae | b | be | e | ne
deriving DecidableEq, Repr

/-- `top OP second`, signed (R189, D43). -/
def Cond.holds (c : Cond) (top second : Word) : Bool :=
  match c with
  | .a => decide (top.toInt > second.toInt)
  | .ae => decide (top.toInt ≥ second.toInt)
  | .b => decide (top.toInt < second.toInt)
  | .be => decide (top.toInt ≤ second.toInt)
  | .e => decide (top.toInt = second.toInt)
  | .ne => decide (top.toInt ≠ second.toInt)

end Sys2Proof.Machine
end

