-- ==== Sys2Proof/Machine/ControlTransfer.lean ====
section
/-! DEFINITION. Machine/ControlTransfer.lean: nop, end, call, ret, jmp and the conditional jumps (42_control_transfer.md). The
label form and the number form of a transfer execute alike (30_encoding.md R99). -/

namespace Sys2Proof.Machine

/-- A jump to an absolute target (R187, R188). -/
def jumpTo (w1 : Word) (s : State) : Result :=
  withTarget w1.toInt s fun tgt => .next (s.transfer tgt)

/-- The link that `call` pushes, `pc + 1`, the offset of its own operand word (R184, C1). -/
def State.link (s : State) : Word := wrap32 (s.pc + 1 : Nat)

/-- A call to an absolute target (R184, R185): the target check comes before the stack check. -/
def callTo (w1 : Word) (s : State) : Result :=
  withTarget w1.toInt s fun tgt => pushing s.link s fun t => .next (t.transfer tgt)

/-- A conditional jump (R189): it pops nothing, and one that is not taken does not look at its target. -/
def jumpIf (c : Cond) (w1 : Word) (s : State) : Result :=
  peekTopTwo s fun t u => if c.holds t u then jumpTo w1 s else .next (s.advance 5)

/-- The target of `ret`: the link plus 4, wrapped (R186). -/
def returnTarget (link : Word) : Word := wrap32 (link.toInt + 4)

/-- `nop` (R182). -/
def execNop (s : State) : Result := .next (s.advance 1)

/-- `end` (R183, C5): halt with `pc = L`; the target check does not apply. -/
def execEnd (s : State) : Result := .next (s.halt.transfer s.codeLength)

/-- `call label` (R184). -/
def execCallLabel (w1 : Word) (s : State) : Result := callTo w1 s

/-- `call n` (R185). -/
def execCallN (w1 : Word) (s : State) : Result := callTo w1 s

/-- `ret` (R186): the link is popped only after the target check. -/
def execRet (s : State) : Result :=
  peekTop s fun link =>
    withTarget (returnTarget link).toInt s fun tgt => popping s fun _ t => .next (t.transfer tgt)

/-- `jmp label` (R187). -/
def execJmpLabel (w1 : Word) (s : State) : Result := jumpTo w1 s

/-- `jmp n` (R188). -/
def execJmpN (w1 : Word) (s : State) : Result := jumpTo w1 s

/-- `ja label` (R190). -/
def execJaLabel (w1 : Word) (s : State) : Result := jumpIf .a w1 s

/-- `ja n` (R191). -/
def execJaN (w1 : Word) (s : State) : Result := jumpIf .a w1 s

/-- `jae label` (R192). -/
def execJaeLabel (w1 : Word) (s : State) : Result := jumpIf .ae w1 s

/-- `jae n` (R193). -/
def execJaeN (w1 : Word) (s : State) : Result := jumpIf .ae w1 s

/-- `jb label` (R194). -/
def execJbLabel (w1 : Word) (s : State) : Result := jumpIf .b w1 s

/-- `jb n` (R195). -/
def execJbN (w1 : Word) (s : State) : Result := jumpIf .b w1 s

/-- `jbe label` (R196). -/
def execJbeLabel (w1 : Word) (s : State) : Result := jumpIf .be w1 s

/-- `jbe n` (R197). -/
def execJbeN (w1 : Word) (s : State) : Result := jumpIf .be w1 s

/-- `je label` (R198). -/
def execJeLabel (w1 : Word) (s : State) : Result := jumpIf .e w1 s

/-- `je n` (R199). -/
def execJeN (w1 : Word) (s : State) : Result := jumpIf .e w1 s

/-- `jne label` (R200). -/
def execJneLabel (w1 : Word) (s : State) : Result := jumpIf .ne w1 s

/-- `jne n` (R201). -/
def execJneN (w1 : Word) (s : State) : Result := jumpIf .ne w1 s

end Sys2Proof.Machine
end

