-- ==== Sys2Proof/Machine/InputOutput.lean ====
section
/-! DEFINITION. Machine/InputOutput.lean: in, out, pix, draw and delay (43_io_framebuffer.md). -/

namespace Sys2Proof.Machine

/-- `PixelWrite(d)` and the default advance (R213). -/
def pixelWrite (d : Int) (s : State) : Result :=
  withPixel d s fun p => .next ((s.writePixel p).advance 5)

/-- Receive the next value of the input port, or wait for ever where it presents none (R53, R276; log 7). -/
def receiving (s : State) (k : Word → State → Result) : Result :=
  match s.input.present with
  | none => .fault .waitingForInput
  | some (n, rest) => k n ((s.setInput rest).emit (.input n))

/-- `in` (R210): StackOverflow is checked before any value is consumed (D24). -/
def execIn (s : State) : Result :=
  if s.stack.length < s.stackCapacity then
    receiving s fun n t => pushing (scaleUp n) t fun u => .next (u.advance 1)
  else raise .stackOverflow s

/-- `out` (R211): the top is emitted and stays. -/
def execOut (s : State) : Result :=
  peekTop s fun v => .next ((s.emit (.output v)).advance 1)

/-- `pix n` (R212): the literal is the descriptor, unscaled. -/
def execPixN (w1 : Word) (s : State) : Result := pixelWrite w1.toInt s

/-- `pix r` (R214): the register divided by the scale is the descriptor. -/
def execPixR (w1 : Word) (s : State) : Result :=
  withReg w1 s fun r => pixelWrite (unscale (s.reg r)) s

/-- `draw` (R215): one frame of the framebuffer as it stands. The hold of about 18 ms changes no state (log 11). -/
def execDraw (s : State) : Result := .next ((s.emit (.display s.fb)).advance 1)

/-- `delay n` (R216): a port event with the operand, unscaled. The hold changes no state (log 11). -/
def execDelayN (w1 : Word) (s : State) : Result := .next ((s.emit (.delay w1)).advance 5)

end Sys2Proof.Machine
end

