-- ==== Sys2Proof/Machine/StackMemory.lean ====
section
/-! DEFINITION. Machine/StackMemory.lean: push and pop in every form (40_stack_memory.md). -/

namespace Sys2Proof.Machine

/-- Push a value and advance past an instruction of the given length. -/
def pushAndAdvance (v : Word) (len : Nat) (s : State) : Result :=
  pushing v s fun t => .next (t.advance len)

/-- Pop into data word `i` and advance. -/
def popToData (i : Nat) (len : Nat) (s : State) : Result :=
  popping s fun v t => .next ((t.writeData i v).advance len)

/-- `push n` (R140). -/
def execPushN (w1 : Word) (s : State) : Result := pushAndAdvance (scaleUp w1) 5 s

/-- `push r` (R141). -/
def execPushR (w1 : Word) (s : State) : Result :=
  withReg w1 s fun r => pushAndAdvance (s.reg r) 5 s

/-- `push [k]` (R142). -/
def execPushMemK (w1 : Word) (s : State) : Result :=
  withRamImmed w1 s fun i => pushAndAdvance (s.readData i) 5 s

/-- `push [r]` (R143). -/
def execPushMemR (w1 : Word) (s : State) : Result :=
  withRamReg w1 s fun i => pushAndAdvance (s.readData i) 5 s

/-- `push [r+d]` (R144). -/
def execPushMemRD (w1 w2 : Word) (s : State) : Result :=
  withRamRegImmed w1 w2 s fun i => pushAndAdvance (s.readData i) 9 s

/-- `pop r` (R145). -/
def execPopR (w1 : Word) (s : State) : Result :=
  withReg w1 s fun r => popping s fun v t => .next ((t.setReg r v).advance 5)

/-- `pop [k]` (R146). -/
def execPopMemK (w1 : Word) (s : State) : Result :=
  withRamImmed w1 s fun i => popToData i 5 s

/-- `pop [r]` (R147). -/
def execPopMemR (w1 : Word) (s : State) : Result :=
  withRamReg w1 s fun i => popToData i 5 s

/-- `pop [r+d]` (R148). -/
def execPopMemRD (w1 w2 : Word) (s : State) : Result :=
  withRamRegImmed w1 w2 s fun i => popToData i 9 s

end Sys2Proof.Machine
end

