-- ==== Sys2Proof/Machine/Dispatch.lean ====
section
/-! DEFINITION. Machine/Dispatch.lean: the dispatch multiplexer (30_encoding.md R105), one arm per instruction. -/

namespace Sys2Proof.Machine

def exec (i : Instr) (s : State) : Host.Outcome State Fault Refusal :=
  match i with
  | .nop => Sys2Proof.Machine.execNop s
  | .pushN w1 => Sys2Proof.Machine.execPushN w1 s
  | .popR w1 => Sys2Proof.Machine.execPopR w1 s
  | .add => Sys2Proof.Machine.execAdd s
  | .sub => Sys2Proof.Machine.execSub s
  | .mul => Sys2Proof.Machine.execMul s
  | .div => Sys2Proof.Machine.execDiv s
  | .end_ => Sys2Proof.Machine.execEnd s
  | .in_ => Sys2Proof.Machine.execIn s
  | .out => Sys2Proof.Machine.execOut s
  | .callLabel w1 => Sys2Proof.Machine.execCallLabel w1 s
  | .pushR w1 => Sys2Proof.Machine.execPushR w1 s
  | .callN w1 => Sys2Proof.Machine.execCallN w1 s
  | .ret => Sys2Proof.Machine.execRet s
  | .sqrt => Sys2Proof.Machine.execSqrt s
  | .incR w1 => Sys2Proof.Machine.execIncR w1 s
  | .pixN w1 => Sys2Proof.Machine.execPixN w1 s
  | .pixR w1 => Sys2Proof.Machine.execPixR w1 s
  | .draw => Sys2Proof.Machine.execDraw s
  | .delayN w1 => Sys2Proof.Machine.execDelayN w1 s
  | .jmpLabel w1 => Sys2Proof.Machine.execJmpLabel w1 s
  | .jmpN w1 => Sys2Proof.Machine.execJmpN w1 s
  | .jaLabel w1 => Sys2Proof.Machine.execJaLabel w1 s
  | .jaN w1 => Sys2Proof.Machine.execJaN w1 s
  | .jaeLabel w1 => Sys2Proof.Machine.execJaeLabel w1 s
  | .jaeN w1 => Sys2Proof.Machine.execJaeN w1 s
  | .jbLabel w1 => Sys2Proof.Machine.execJbLabel w1 s
  | .jbN w1 => Sys2Proof.Machine.execJbN w1 s
  | .jbeLabel w1 => Sys2Proof.Machine.execJbeLabel w1 s
  | .jbeN w1 => Sys2Proof.Machine.execJbeN w1 s
  | .jeLabel w1 => Sys2Proof.Machine.execJeLabel w1 s
  | .jeN w1 => Sys2Proof.Machine.execJeN w1 s
  | .jneLabel w1 => Sys2Proof.Machine.execJneLabel w1 s
  | .jneN w1 => Sys2Proof.Machine.execJneN w1 s
  | .pushMemK w1 => Sys2Proof.Machine.execPushMemK w1 s
  | .pushMemR w1 => Sys2Proof.Machine.execPushMemR w1 s
  | .pushMemRD w1 w2 => Sys2Proof.Machine.execPushMemRD w1 w2 s
  | .popMemK w1 => Sys2Proof.Machine.execPopMemK w1 s
  | .popMemR w1 => Sys2Proof.Machine.execPopMemR w1 s
  | .popMemRD w1 w2 => Sys2Proof.Machine.execPopMemRD w1 w2 s

end Sys2Proof.Machine
end

