-- ==== Sys2Proof/Decode.lean ====
section
/-! DEFINITION. Decode.lean: the opcode map and the decoder of 30_encoding.md (R90 to R92, R100 to R104, R111), MemRead of
20_memory.md R61, and after them the encoder (R90, R127). The decoder is total on any bytes and rejects by name. -/

namespace Sys2Proof

/-- The operand words of a mode (R92). -/
def Mode.words : Mode → Nat
  | .none => 0
  | .number | .register | .ramImmed | .ramReg | .label => 1
  | .ramRegImmed => 2

/-- The length of an instruction of a mode, `1 + 4*words` bytes (R90, R91). -/
def Mode.length (m : Mode) : Nat := 1 + 4 * m.words

/-- A row of the opcode map. -/
structure OpcodeRow where
  opcode : Nat
  mnemonic : Mnemonic
  mode : Mode
deriving DecidableEq, Repr

/-- Rows 1 to 10 of the opcode map (R100, R101). -/
def opcodeRows0 : List OpcodeRow := [
  ⟨0, .nop, .none⟩,
  ⟨1, .push, .number⟩,
  ⟨2, .pop, .register⟩,
  ⟨3, .add, .none⟩,
  ⟨4, .sub, .none⟩,
  ⟨5, .mul, .none⟩,
  ⟨6, .div, .none⟩,
  ⟨7, .end_, .none⟩,
  ⟨8, .in_, .none⟩,
  ⟨9, .out, .none⟩]

/-- Rows 11 to 20 of the opcode map (R100, R101). -/
def opcodeRows1 : List OpcodeRow := [
  ⟨10, .call, .label⟩,
  ⟨11, .push, .register⟩,
  ⟨12, .call, .number⟩,
  ⟨13, .ret, .none⟩,
  ⟨14, .sqrt, .none⟩,
  ⟨15, .inc, .register⟩,
  ⟨16, .pix, .number⟩,
  ⟨17, .pix, .register⟩,
  ⟨18, .draw, .none⟩,
  ⟨19, .delay, .number⟩]

/-- Rows 21 to 30 of the opcode map (R100, R101). -/
def opcodeRows2 : List OpcodeRow := [
  ⟨20, .jmp, .label⟩,
  ⟨21, .jmp, .number⟩,
  ⟨22, .ja, .label⟩,
  ⟨23, .ja, .number⟩,
  ⟨24, .jae, .label⟩,
  ⟨25, .jae, .number⟩,
  ⟨26, .jb, .label⟩,
  ⟨27, .jb, .number⟩,
  ⟨28, .jbe, .label⟩,
  ⟨29, .jbe, .number⟩]

/-- Rows 31 to 40 of the opcode map (R100, R101). -/
def opcodeRows3 : List OpcodeRow := [
  ⟨30, .je, .label⟩,
  ⟨31, .je, .number⟩,
  ⟨32, .jne, .label⟩,
  ⟨33, .jne, .number⟩,
  ⟨41, .push, .ramImmed⟩,
  ⟨42, .push, .ramReg⟩,
  ⟨43, .push, .ramRegImmed⟩,
  ⟨52, .pop, .ramImmed⟩,
  ⟨53, .pop, .ramReg⟩,
  ⟨54, .pop, .ramRegImmed⟩]

/-- The complete opcode map (R100): the one table that the decoder and the assembler share (R104). -/
def opcodeMap : List OpcodeRow := opcodeRows0 ++ opcodeRows1 ++ opcodeRows2 ++ opcodeRows3

/-- The decoder of R104, from an opcode byte to its row, or none for an unassigned opcode (R102). -/
def decodeOpcode (op : Nat) : Option OpcodeRow := opcodeMap.find? (fun r => r.opcode == op)

/-- The instruction of an opcode with its operand words (R105: two opcodes that share a mnemonic are two instructions). -/
def instrOf (op : Nat) (w1 w2 : Word) : Option Instr :=
  match op with
  | 0 => some .nop
  | 1 => some (.pushN w1)
  | 2 => some (.popR w1)
  | 3 => some .add
  | 4 => some .sub
  | 5 => some .mul
  | 6 => some .div
  | 7 => some .end_
  | 8 => some .in_
  | 9 => some .out
  | 10 => some (.callLabel w1)
  | 11 => some (.pushR w1)
  | 12 => some (.callN w1)
  | 13 => some .ret
  | 14 => some .sqrt
  | 15 => some (.incR w1)
  | 16 => some (.pixN w1)
  | 17 => some (.pixR w1)
  | 18 => some .draw
  | 19 => some (.delayN w1)
  | 20 => some (.jmpLabel w1)
  | 21 => some (.jmpN w1)
  | 22 => some (.jaLabel w1)
  | 23 => some (.jaN w1)
  | 24 => some (.jaeLabel w1)
  | 25 => some (.jaeN w1)
  | 26 => some (.jbLabel w1)
  | 27 => some (.jbN w1)
  | 28 => some (.jbeLabel w1)
  | 29 => some (.jbeN w1)
  | 30 => some (.jeLabel w1)
  | 31 => some (.jeN w1)
  | 32 => some (.jneLabel w1)
  | 33 => some (.jneN w1)
  | 41 => some (.pushMemK w1)
  | 42 => some (.pushMemR w1)
  | 43 => some (.pushMemRD w1 w2)
  | 52 => some (.popMemK w1)
  | 53 => some (.popMemR w1)
  | 54 => some (.popMemRD w1 w2)
  | _ => none

/-- `n` bytes from the front of a byte string as one little-endian number (R61, R62), none where they are not there. -/
def takeLE : Nat → List Byte → Option Nat
  | 0, _ => some 0
  | _ + 1, [] => none
  | n + 1, b :: rest => (takeLE n rest).map (b.toNat + 256 * ·)

/-- `MemRead(addr, n)` of R61: defined for `addr + n <= L` only. -/
def memRead (code : List Byte) (addr n : Nat) : Option Nat := takeLE n (code.drop addr)

/-- The operand word at a byte offset (R62). Where MemRead is not defined the decoder does not ask (R111). -/
def operandWord (code : List Byte) (addr : Nat) : Word := BitVec.ofNat 32 ((memRead code addr 4).getD 0)

/-- What the decoder answers. -/
inductive Decoded where
  /-- An instruction and its length in bytes. -/
  | instr (i : Instr) (len : Nat)
  /-- The first byte is an unassigned opcode (R102, R111). -/
  | unknownOpcode (op : Nat)
  /-- The instruction needs more bytes than there are (R69, R111). -/
  | truncated
  /-- There is no byte at all (R113). -/
  | endOfCode
deriving DecidableEq, Repr

/-- The fetch and decode checks of R111, in order, over the code bytes from the instruction's first byte on. -/
def decode (bytes : List Byte) : Decoded :=
  match memRead bytes 0 1 with
  | none => .endOfCode
  | some op =>
    match decodeOpcode op with
    | none => .unknownOpcode op
    | some row =>
      if row.mode.length > bytes.length then .truncated
      else
        match instrOf op (operandWord bytes 1) (operandWord bytes 5) with
        | none => .unknownOpcode op
        | some i => .instr i row.mode.length

/-- The opcode of an instruction (R100). -/
def Instr.opcode : Instr → Nat
  | .nop => 0
  | .pushN _ => 1
  | .popR _ => 2
  | .add => 3
  | .sub => 4
  | .mul => 5
  | .div => 6
  | .end_ => 7
  | .in_ => 8
  | .out => 9
  | .callLabel _ => 10
  | .pushR _ => 11
  | .callN _ => 12
  | .ret => 13
  | .sqrt => 14
  | .incR _ => 15
  | .pixN _ => 16
  | .pixR _ => 17
  | .draw => 18
  | .delayN _ => 19
  | .jmpLabel _ => 20
  | .jmpN _ => 21
  | .jaLabel _ => 22
  | .jaN _ => 23
  | .jaeLabel _ => 24
  | .jaeN _ => 25
  | .jbLabel _ => 26
  | .jbN _ => 27
  | .jbeLabel _ => 28
  | .jbeN _ => 29
  | .jeLabel _ => 30
  | .jeN _ => 31
  | .jneLabel _ => 32
  | .jneN _ => 33
  | .pushMemK _ => 41
  | .pushMemR _ => 42
  | .pushMemRD _ _ => 43
  | .popMemK _ => 52
  | .popMemR _ => 53
  | .popMemRD _ _ => 54

/-- The operand words of an instruction, in the order they are stored (R92, D33). -/
def Instr.operands : Instr → List Word
  | .nop => []
  | .pushN w1 => [w1]
  | .popR w1 => [w1]
  | .add => []
  | .sub => []
  | .mul => []
  | .div => []
  | .end_ => []
  | .in_ => []
  | .out => []
  | .callLabel w1 => [w1]
  | .pushR w1 => [w1]
  | .callN w1 => [w1]
  | .ret => []
  | .sqrt => []
  | .incR w1 => [w1]
  | .pixN w1 => [w1]
  | .pixR w1 => [w1]
  | .draw => []
  | .delayN w1 => [w1]
  | .jmpLabel w1 => [w1]
  | .jmpN w1 => [w1]
  | .jaLabel w1 => [w1]
  | .jaN w1 => [w1]
  | .jaeLabel w1 => [w1]
  | .jaeN w1 => [w1]
  | .jbLabel w1 => [w1]
  | .jbN w1 => [w1]
  | .jbeLabel w1 => [w1]
  | .jbeN w1 => [w1]
  | .jeLabel w1 => [w1]
  | .jeN w1 => [w1]
  | .jneLabel w1 => [w1]
  | .jneN w1 => [w1]
  | .pushMemK w1 => [w1]
  | .pushMemR w1 => [w1]
  | .pushMemRD w1 w2 => [w1, w2]
  | .popMemK w1 => [w1]
  | .popMemR w1 => [w1]
  | .popMemRD w1 w2 => [w1, w2]

/-- The length of an instruction in bytes, `1 + 4*words` (R90). -/
def Instr.length (i : Instr) : Nat := 1 + 4 * i.operands.length

/-- The four bytes of an operand word, least significant first (R62, R90). -/
def wordBytes (w : Word) : List Byte :=
  [w.extractLsb' 0 8, w.extractLsb' 8 8, w.extractLsb' 16 8, w.extractLsb' 24 8]

/-- The encoder (R90, R127): the opcode byte followed by the operand words. -/
def encode (i : Instr) : List Byte := BitVec.ofNat 8 i.opcode :: i.operands.flatMap wordBytes

/-- The longest instruction, format F2 (R90). -/
abbrev maxLength : Nat := 9

/-- The `k` bytes of a number, least significant first: the instruction that the opcode table writes as one number (R90). -/
def bytesOfNat : Nat → Nat → List Byte
  | 0, _ => []
  | k + 1, v => BitVec.ofNat 8 v :: bytesOfNat k (v / 256)

/-- The instruction whose low `nbits` bits are `w`, every further bit 0, as nine code bytes. -/
def tableBytes (nbits w : Nat) : List Byte := bytesOfNat maxLength (w % 2 ^ nbits)

/-- The instruction the decoder reads from a word of the opcode table, none where it refuses. -/
def decodeTableWord (nbits w : Nat) : Option Instr :=
  match decode (tableBytes nbits w) with
  | .instr i _ => some i
  | _ => none

end Sys2Proof
end

