-- ==== Sys2Proof/Machine/Fetch.lean ====
section
/-! DEFINITION. Machine/Fetch.lean: the fetch and decode part of a step (30_encoding.md R110 to R114) and the placing of an
instruction where the next step fetches. -/

namespace Sys2Proof.Machine

/-- The code bytes from `pc` on, decoded (R110, R111). -/
def fetch (s : State) : Decoded := decode (s.code.drop s.pc)

/-- `op` at `pc`, and what the step does with what it fetched: the fetch faults of R111, the normal halt of R113, or the
handler of the instruction (R105). -/
def dispatch (handler : Instr → State → Result) (s : State) : Result :=
  match fetch s with
  | .instr i _ => handler i s
  | .unknownOpcode _ => raise .unknownOpcode s
  | .truncated => raise .truncatedInstruction s
  | .endOfCode => .next s.halt

/-- Code memory with bytes placed at an offset: what stands before and after them is kept, and a gap before them is `nop`s. -/
def placeBytes (code : List Byte) (at_ : Nat) (bytes : List Byte) : List Byte :=
  code.take at_ ++ List.replicate (at_ - code.length) 0 ++ bytes ++ code.drop (at_ + bytes.length)

/-- The state with the instruction whose low `nbits` bits are `w` placed at `pc`, and running (log 1, log 13). -/
def State.withInstructionAtPc (s : State) (nbits w : Nat) : State :=
  { s with code := placeBytes s.code s.pc (tableBytes nbits w), halted := false, cause := none }

/-- The byte offsets a step asks the code fetch port for (R49, R114): those of the instruction at `pc`. -/
def fetchedOffsets (s : State) : List Nat :=
  match fetch s with
  | .instr _ len => List.range' s.pc len
  | .unknownOpcode _ | .truncated => [s.pc]
  | .endOfCode => []

end Sys2Proof.Machine
end

