-- ==== Sys2Proof/Machine/Step.lean ====
section
/-! DEFINITION. Machine/Step.lean: one step of the machine (30_encoding.md R110) and the host's placing of an instruction. -/

namespace Sys2Proof.Machine

/-- One step (R110): a halted or faulted machine takes none (R275); with `pc >= L` the machine halts (R113); otherwise it
fetches, decodes and runs one instruction. -/
def step (s : State) : Host.Outcome State Fault Refusal :=
  if s.halted then .fault .halted
  else
    match s.cause with
    | some c => .fault (.faulted c)
    | none => if s.pc ≥ s.codeLength then .next s.halt else dispatch exec s

/-- The state with an instruction of the opcode table stored where `step` fetches its next instruction (log 1, log 13). -/
def State.withFetchWord (s : State) (nbits w : Nat) : State := s.withInstructionAtPc nbits w

end Sys2Proof.Machine
end

