-- ==== Sys2Proof/Laws/Decode.lean ====
section
/-! SUPPORT. Laws/Decode.lean: the small lemmas of MemRead, operand words and the placed bytes of the decoder. -/

namespace Sys2Proof

/-- MemRead of `n` bytes is there exactly where `n` bytes are. -/
theorem takeLE_isSome (n : Nat) (bytes : List Byte) : (takeLE n bytes).isSome = decide (n ≤ bytes.length) := by
  induction n generalizing bytes with
  | zero => simp [takeLE]
  | succ n ih => cases bytes <;> simp [takeLE, ih]

/-- Bytes after the ones read do not matter. -/
theorem takeLE_append {n : Nat} {bytes : List Byte} (h : n ≤ bytes.length) (rest : List Byte) :
    takeLE n (bytes ++ rest) = takeLE n bytes := by
  induction n generalizing bytes with
  | zero => simp [takeLE]
  | succ n ih =>
    cases bytes with
    | nil => simp at h
    | cons b bytes => simp only [List.cons_append, takeLE, ih (by simpa using h)]

/-- The length of every operand word is four bytes. -/
@[simp] theorem wordBytes_length (w : Word) : (wordBytes w).length = 4 := rfl

/-- The first byte alone. -/
@[simp] theorem memRead_first (b : Byte) (bytes : List Byte) : memRead (b :: bytes) 0 1 = some b.toNat := by
  simp [memRead, takeLE]

/-- No byte at all. -/
@[simp] theorem memRead_nil : memRead [] 0 1 = none := rfl

/-- The length of an encoding. -/
theorem encode_length (i : Instr) : (encode i).length = i.length := by
  cases i <;> rfl

end Sys2Proof
end

