-- ==== Sys2Proof/Laws/Memory.lean ====
section
/-! SUPPORT. Laws/Memory.lean: the laws of a sparse memory in canonical form: a read after a write, a write leaves the rest
alone, every write keeps the canonical form, and equal contents are equal lists. -/

namespace Sys2Proof.Machine

variable {w : Nat} {size : Nat}

/-- The empty memory has the canonical form. -/
theorem Memory.wf_nil : Memory.wf size ([] : List (Nat × BitVec w)) := ⟨List.Pairwise.nil, by simp⟩

/-- What a write can list: entries that were there, and the one written. -/
theorem Memory.mem_write {m : List (Nat × BitVec w)} {a : Nat} {v : BitVec w} {c : Nat × BitVec w}
    (h : c ∈ Memory.write m a v) : c ∈ m ∨ (c = (a, v) ∧ v ≠ 0#w) := by
  induction m with
  | nil => by_cases hv : v = 0#w <;> simp_all [Memory.write]
  | cons e m ih =>
    obtain ⟨b, u⟩ := e
    by_cases hv : v = 0#w <;> by_cases h1 : a < b <;> by_cases h2 : a = b <;>
      simp_all [Memory.write] <;> grind

/-- An address below every listed one reads as 0. -/
theorem Memory.read_below {m : List (Nat × BitVec w)} {a : Nat} (h : ∀ c ∈ m, a < c.1) : Memory.read m a = 0#w := by
  induction m with
  | nil => rfl
  | cons e m ih =>
    have he := h e (by simp)
    rw [Memory.read, if_neg (by omega), ih fun c hc => h c (by simp [hc])]

/-- A read after a write to the same address gives the value written. -/
theorem Memory.read_write_same {m : List (Nat × BitVec w)} (hm : m.Pairwise (fun a b => a.1 < b.1)) (a : Nat)
    (v : BitVec w) : Memory.read (Memory.write m a v) a = v := by
  induction m with
  | nil => by_cases hv : v = 0#w <;> simp [Memory.write, Memory.read, hv]
  | cons e m ih =>
    obtain ⟨b, u⟩ := e
    obtain ⟨hb, hm⟩ := List.pairwise_cons.1 hm
    rw [Memory.write]
    split
    · split
      · rename_i h hv
        rw [hv, Memory.read_below]
        rintro c hc
        rcases List.mem_cons.1 hc with rfl | hc
        · exact h
        · have := hb c hc
          omega
      · simp [Memory.read]
    · split
      · rename_i h
        subst h
        split
        · rename_i hv
          rw [hv, Memory.read_below hb]
        · simp [Memory.read]
      · rename_i h
        rw [Memory.read, if_neg (fun e => h e.symm), ih hm]

/-- A write leaves every other address alone, whatever the form of the memory. -/
theorem Memory.read_write_other (m : List (Nat × BitVec w)) {a b : Nat} (v : BitVec w) (h : b ≠ a) :
    Memory.read (Memory.write m a v) b = Memory.read m b := by
  induction m with
  | nil => by_cases hv : v = 0#w <;> simp [Memory.write, Memory.read, hv, Ne.symm h]
  | cons e m ih =>
    obtain ⟨c, u⟩ := e
    rw [Memory.write]
    split
    · split <;> simp [Memory.read, Ne.symm h]
    · split
      · rename_i hc
        subst hc
        split <;> simp [Memory.read, Ne.symm h]
      · simp only [Memory.read, ih]

/-- Every write inside the memory keeps the canonical form. -/
theorem Memory.write_wf {m : List (Nat × BitVec w)} (hm : Memory.wf size m) {a : Nat} (ha : a < size) (v : BitVec w) :
    Memory.wf size (Memory.write m a v) := by
  refine ⟨?_, fun c hc => ?_⟩
  · obtain ⟨hm, -⟩ := hm
    induction m with
    | nil => by_cases hv : v = 0#w <;> simp [Memory.write, hv]
    | cons e m ih =>
      obtain ⟨b, u⟩ := e
      obtain ⟨hb, hm'⟩ := List.pairwise_cons.1 hm
      rw [Memory.write]
      split
      · split
        · exact hm
        · refine List.pairwise_cons.2 ⟨fun c hc => ?_, hm⟩
          rcases List.mem_cons.1 hc with rfl | hc
          · assumption
          · have := hb c hc
            simp only at *
            omega
      · split
        · rename_i h
          subst h
          split
          · exact hm'
          · exact List.pairwise_cons.2 ⟨hb, hm'⟩
        · refine List.pairwise_cons.2 ⟨fun c hc => ?_, ih hm'⟩
          rcases Memory.mem_write hc with hc | ⟨rfl, -⟩
          · exact hb c hc
          · simp only
            omega
  · rcases Memory.mem_write hc with hc | ⟨rfl, hv⟩
    · exact hm.2 c hc
    · exact ⟨ha, hv⟩

/-- What a listed entry reads as. -/
theorem Memory.read_of_mem {m : List (Nat × BitVec w)} (hm : m.Pairwise (fun a b => a.1 < b.1)) {c : Nat × BitVec w}
    (hc : c ∈ m) : Memory.read m c.1 = c.2 := by
  induction m with
  | nil => cases hc
  | cons e m ih =>
    obtain ⟨hb, hm⟩ := List.pairwise_cons.1 hm
    rcases List.mem_cons.1 hc with rfl | hc
    · simp [Memory.read]
    · have := hb c hc
      rw [Memory.read, if_neg (by omega), ih hm hc]

/-- An address that reads as something else than 0 is listed. -/
theorem Memory.mem_of_read_ne {m : List (Nat × BitVec w)} {a : Nat} (h : Memory.read m a ≠ 0#w) :
    (a, Memory.read m a) ∈ m := by
  induction m with
  | nil => exact absurd rfl h
  | cons e m ih =>
    obtain ⟨b, u⟩ := e
    by_cases hb : b = a
    · simp [Memory.read, hb]
    · simp only [Memory.read, if_neg hb] at h ⊢
      exact List.mem_cons_of_mem _ (ih h)

/-- Nothing is listed outside the memory, so an address outside it reads as 0. -/
theorem Memory.read_outside {m : List (Nat × BitVec w)} (hm : Memory.wf size m) {a : Nat} (ha : size ≤ a) :
    Memory.read m a = 0#w := by
  by_contra h
  exact absurd (hm.2 _ (Memory.mem_of_read_ne h)).1 (by simp only; omega)

/-- Two memories in canonical form with the same contents are the same list. -/
theorem Memory.ext {m n : List (Nat × BitVec w)} (hm : Memory.wf size m) (hn : Memory.wf size n)
    (h : ∀ a, Memory.read m a = Memory.read n a) : m = n := by
  have sub : ∀ {m n : List (Nat × BitVec w)}, Memory.wf size m → Memory.wf size n →
      (∀ a, Memory.read m a = Memory.read n a) → ∀ c ∈ m, c ∈ n := by
    intro m n hm _ h c hc
    have hr := Memory.read_of_mem hm.1 hc
    have : (c.1, Memory.read n c.1) ∈ n := Memory.mem_of_read_ne (by rw [← h, hr]; exact (hm.2 c hc).2)
    rwa [← h, hr] at this
  have nodup : ∀ {m : List (Nat × BitVec w)}, Memory.wf size m → m.Nodup := fun hm =>
    hm.1.imp fun {a b} hab e => absurd hab (by rw [e]; omega)
  refine List.Perm.eq_of_pairwise (le := fun a b => a.1 < b.1) ?_ hm.1 hn.1
    ((List.perm_ext_iff_of_nodup (nodup hm) (nodup hn)).2 fun c => ⟨sub hm hn h c, sub hn hm (fun a => (h a).symm) c⟩)
  intro a b _ _ hab hba
  omega

end Sys2Proof.Machine
end

