-- ==== Sys2Proof/Laws/Numbers.lean ====
section
/-! SUPPORT. Laws/Numbers.lean: what the checks and the arithmetic of Machine/Numbers.lean compute, each said once. -/

namespace Sys2Proof.Machine

/-! ### wrap32 (R11) -/

/-- `wrap32` keeps a value that is in the signed 32-bit range. -/
theorem wrap32_toInt {v : Int} (h : -2147483648 ≤ v ∧ v < 2147483648) : (wrap32 v).toInt = v := by
  rw [wrap32, BitVec.toInt_ofInt]
  exact Int.bmod_eq_of_le (by omega) (by omega)

/-- `wrap32` of the value of a word is the word. -/
@[simp] theorem wrap32_of_toInt (w : Word) : wrap32 w.toInt = w := BitVec.ofInt_toInt

/-- A word that is not negative reads the same signed and unsigned. -/
theorem toInt_eq_toNat {w : Word} (h : 0 ≤ w.toInt) : w.toInt = w.toNat := by
  rw [BitVec.toInt_eq_toNat_cond] at h ⊢
  split at h <;> simp_all
  omega

/-! ### The register check (R94) -/

/-- Exactly the words 0 to 3 name a register, each its own. -/
theorem regIndex_eq_some {w : Word} {r : Fin 4} : regIndex w = some r ↔ w.toInt = (r : Nat) := by
  unfold regIndex
  split
  · rename_i h
    have hn := toInt_eq_toNat h.1
    constructor
    · intro e
      rw [← Option.some.inj e, hn, Fin.val_ofNat]
      omega
    · intro e
      congr 1
      apply Fin.ext
      rw [Fin.val_ofNat]
      omega
  · rename_i h
    constructor
    · intro e
      cases e
    · intro e
      have := r.isLt
      omega

/-- Every other word raises InvalidRegister. -/
theorem regIndex_eq_none {w : Word} : regIndex w = none ↔ w.toInt < 0 ∨ 3 < w.toInt := by
  unfold regIndex
  split <;> simp <;> omega

/-! ### The bounds check (R66) -/

/-- Exactly the integers 0 to 1023 are data indices. -/
theorem dataIndex_eq_some {i : Int} {n : Nat} : dataIndex i = some n ↔ i = n ∧ n < dmemWords := by
  unfold dataIndex
  split <;> simp <;> omega

/-- Every other integer raises MemoryOutOfBounds. -/
theorem dataIndex_eq_none {i : Int} : dataIndex i = none ↔ i < 0 ∨ 1024 ≤ i := by
  unfold dataIndex
  split <;> simp_all
  omega

/-! ### The target check (R181) -/

/-- Exactly the integers in `[0, L)` are targets. -/
theorem codeTarget_eq_some {L : Nat} {tgt : Int} {n : Nat} : codeTarget L tgt = some n ↔ tgt = n ∧ n < L := by
  unfold codeTarget
  split <;> simp <;> omega

/-- Every other integer raises ControlTransferOutOfBounds. -/
theorem codeTarget_eq_none {L : Nat} {tgt : Int} : codeTarget L tgt = none ↔ tgt < 0 ∨ (L : Int) ≤ tgt := by
  unfold codeTarget
  split <;> simp <;> omega

/-! ### The pixel descriptor (R213) -/

/-- The descriptors that name a pixel, and which pixel: column, row and colour are the three parts of the number. -/
theorem pixelOf_eq_some {d : Int} {p : Pixel} :
    pixelOf d = some p ↔ 0 ≤ d ∧ (p.x : Int) = d / 10000 ∧ (p.y : Int) = d / 10 % 1000 ∧ (p.color : Int) = d % 10
      ∧ p.x < fbWidth ∧ p.y < fbHeight := by
  unfold pixelOf
  obtain ⟨x, y, c⟩ := p
  have h1 : Int.fdiv d 10000 = d / 10000 := Int.fdiv_eq_ediv_of_nonneg d (by decide)
  have h2 : Int.fdiv d 10 = d / 10 := Int.fdiv_eq_ediv_of_nonneg d (by decide)
  have h3 : Int.fmod (d / 10) 1000 = d / 10 % 1000 := Int.fmod_eq_emod_of_nonneg _ (by decide)
  have h4 : Int.fmod d 10 = d % 10 := Int.fmod_eq_emod_of_nonneg _ (by decide)
  simp only [h1, h2, h3, h4]
  split
  · simp; omega
  · split
    · simp; omega
    · simp only [Option.some.injEq, Pixel.mk.injEq]
      omega

/-- A pixel is inside the frame and its colour is 0 to 9. -/
theorem pixelOf_bounds {d : Int} {p : Pixel} (h : pixelOf d = some p) : p.cell < fbCells ∧ p.color ≤ 9 := by
  obtain ⟨-, -, -, hc, hx, hy⟩ := pixelOf_eq_some.1 h
  have : (p.x : Nat) < 64 := hx
  have : (p.y : Nat) < 64 := hy
  constructor
  · show 64 * p.y + p.x < 64 * 64
    omega
  · omega

/-- The other descriptors raise PixelOutOfBounds: the negative ones, and those with a column or a row of 64 or more. -/
theorem pixelOf_eq_none {d : Int} : pixelOf d = none ↔ d < 0 ∨ 64 ≤ d / 10000 ∨ 64 ≤ d / 10 % 1000 := by
  unfold pixelOf
  have h1 : Int.fdiv d 10000 = d / 10000 := Int.fdiv_eq_ediv_of_nonneg d (by decide)
  have h2 : Int.fdiv d 10 = d / 10 := Int.fdiv_eq_ediv_of_nonneg d (by decide)
  have h3 : Int.fmod (d / 10) 1000 = d / 10 % 1000 := Int.fmod_eq_emod_of_nonneg _ (by decide)
  have hw : ((fbWidth : Nat) : Int) = 64 := rfl
  simp only [h1, h2, h3, hw]
  split
  · simp; omega
  · split <;> simp only [reduceCtorEq, true_iff, false_iff] <;> omega

/-! ### The integer square root (R165) -/

/-- The bitwise root from bit `b` down ends at the largest root, if the start is a root and the bits suffice. -/
theorem isqrtFrom_spec (b m q : Nat) (lo : q * q ≤ m) (hi : m < (q + 2 ^ b) * (q + 2 ^ b)) :
    isqrtFrom b m q * isqrtFrom b m q ≤ m ∧ m < (isqrtFrom b m q + 1) * (isqrtFrom b m q + 1) := by
  induction b generalizing q with
  | zero => simpa [isqrtFrom] using ⟨lo, hi⟩
  | succ b ih =>
    rw [isqrtFrom]
    split
    · rename_i h
      refine ih _ h ?_
      have : q + 2 ^ b + 2 ^ b = q + 2 ^ (b + 1) := by rw [pow_succ]; omega
      rwa [this]
    · rename_i h
      exact ih _ lo (by omega)

/-- `isqrt m` is the largest `q` with `q*q <= m`, for every `m` that R165 needs. -/
theorem isqrt_spec {m : Nat} (h : m < 2 ^ 38) : isqrt m * isqrt m ≤ m ∧ m < (isqrt m + 1) * (isqrt m + 1) :=
  isqrtFrom_spec 19 m 0 (by omega) (by simpa using h)

end Sys2Proof.Machine
end

