-- ==== Sys2Proof/Laws/State.lean ====
section
/-! SUPPORT. Laws/State.lean: one lemma per field per update of the state, each true by unfolding, so that no later proof
unfolds a record update; and the values of the fields after reset. -/

namespace Sys2Proof.Machine

variable (s : State)

/-! ### setReg -/

@[simp] theorem State.setReg_x (r : Fin 4) (v : Word) : (s.setReg r v).x = s.x.set r v := rfl
@[simp] theorem State.setReg_pc (r : Fin 4) (v : Word) : (s.setReg r v).pc = s.pc := rfl
@[simp] theorem State.setReg_stack (r : Fin 4) (v : Word) : (s.setReg r v).stack = s.stack := rfl
@[simp] theorem State.setReg_dm (r : Fin 4) (v : Word) : (s.setReg r v).dm = s.dm := rfl
@[simp] theorem State.setReg_fb (r : Fin 4) (v : Word) : (s.setReg r v).fb = s.fb := rfl
@[simp] theorem State.setReg_halted (r : Fin 4) (v : Word) : (s.setReg r v).halted = s.halted := rfl
@[simp] theorem State.setReg_cause (r : Fin 4) (v : Word) : (s.setReg r v).cause = s.cause := rfl
@[simp] theorem State.setReg_code (r : Fin 4) (v : Word) : (s.setReg r v).code = s.code := rfl
@[simp] theorem State.setReg_stackCapacity (r : Fin 4) (v : Word) : (s.setReg r v).stackCapacity = s.stackCapacity := rfl
@[simp] theorem State.setReg_input (r : Fin 4) (v : Word) : (s.setReg r v).input = s.input := rfl
@[simp] theorem State.setReg_events (r : Fin 4) (v : Word) : (s.setReg r v).events = s.events := rfl
@[simp] theorem State.setReg_readData (r : Fin 4) (v : Word) (k : Nat) : (s.setReg r v).readData k = s.readData k := rfl
@[simp] theorem State.setReg_readCell (r : Fin 4) (v : Word) (k : Nat) : (s.setReg r v).readCell k = s.readCell k := rfl
@[simp] theorem State.setReg_codeLength (r : Fin 4) (v : Word) : (s.setReg r v).codeLength = s.codeLength := rfl

/-! ### writeData -/

@[simp] theorem State.writeData_x (i : Nat) (v : Word) : (s.writeData i v).x = s.x := rfl
@[simp] theorem State.writeData_pc (i : Nat) (v : Word) : (s.writeData i v).pc = s.pc := rfl
@[simp] theorem State.writeData_stack (i : Nat) (v : Word) : (s.writeData i v).stack = s.stack := rfl
@[simp] theorem State.writeData_dm (i : Nat) (v : Word) : (s.writeData i v).dm = Memory.write s.dm i v := rfl
@[simp] theorem State.writeData_fb (i : Nat) (v : Word) : (s.writeData i v).fb = s.fb := rfl
@[simp] theorem State.writeData_halted (i : Nat) (v : Word) : (s.writeData i v).halted = s.halted := rfl
@[simp] theorem State.writeData_cause (i : Nat) (v : Word) : (s.writeData i v).cause = s.cause := rfl
@[simp] theorem State.writeData_code (i : Nat) (v : Word) : (s.writeData i v).code = s.code := rfl
@[simp] theorem State.writeData_stackCapacity (i : Nat) (v : Word) : (s.writeData i v).stackCapacity = s.stackCapacity := rfl
@[simp] theorem State.writeData_input (i : Nat) (v : Word) : (s.writeData i v).input = s.input := rfl
@[simp] theorem State.writeData_events (i : Nat) (v : Word) : (s.writeData i v).events = s.events := rfl
@[simp] theorem State.writeData_reg (i : Nat) (v : Word) (q : Fin 4) : (s.writeData i v).reg q = s.reg q := rfl
@[simp] theorem State.writeData_readCell (i : Nat) (v : Word) (k : Nat) : (s.writeData i v).readCell k = s.readCell k := rfl
@[simp] theorem State.writeData_codeLength (i : Nat) (v : Word) : (s.writeData i v).codeLength = s.codeLength := rfl

/-! ### writePixel -/

@[simp] theorem State.writePixel_x (p : Pixel) : (s.writePixel p).x = s.x := rfl
@[simp] theorem State.writePixel_pc (p : Pixel) : (s.writePixel p).pc = s.pc := rfl
@[simp] theorem State.writePixel_stack (p : Pixel) : (s.writePixel p).stack = s.stack := rfl
@[simp] theorem State.writePixel_dm (p : Pixel) : (s.writePixel p).dm = s.dm := rfl
@[simp] theorem State.writePixel_fb (p : Pixel) : (s.writePixel p).fb = Memory.write s.fb p.cell (BitVec.ofNat 8 p.color) := rfl
@[simp] theorem State.writePixel_halted (p : Pixel) : (s.writePixel p).halted = s.halted := rfl
@[simp] theorem State.writePixel_cause (p : Pixel) : (s.writePixel p).cause = s.cause := rfl
@[simp] theorem State.writePixel_code (p : Pixel) : (s.writePixel p).code = s.code := rfl
@[simp] theorem State.writePixel_stackCapacity (p : Pixel) : (s.writePixel p).stackCapacity = s.stackCapacity := rfl
@[simp] theorem State.writePixel_input (p : Pixel) : (s.writePixel p).input = s.input := rfl
@[simp] theorem State.writePixel_events (p : Pixel) : (s.writePixel p).events = s.events := rfl
@[simp] theorem State.writePixel_reg (p : Pixel) (q : Fin 4) : (s.writePixel p).reg q = s.reg q := rfl
@[simp] theorem State.writePixel_readData (p : Pixel) (k : Nat) : (s.writePixel p).readData k = s.readData k := rfl
@[simp] theorem State.writePixel_codeLength (p : Pixel) : (s.writePixel p).codeLength = s.codeLength := rfl

/-! ### setPc -/

@[simp] theorem State.setPc_x (n : Nat) : (s.setPc n).x = s.x := rfl
@[simp] theorem State.setPc_pc (n : Nat) : (s.setPc n).pc = n := rfl
@[simp] theorem State.setPc_stack (n : Nat) : (s.setPc n).stack = s.stack := rfl
@[simp] theorem State.setPc_dm (n : Nat) : (s.setPc n).dm = s.dm := rfl
@[simp] theorem State.setPc_fb (n : Nat) : (s.setPc n).fb = s.fb := rfl
@[simp] theorem State.setPc_halted (n : Nat) : (s.setPc n).halted = s.halted := rfl
@[simp] theorem State.setPc_cause (n : Nat) : (s.setPc n).cause = s.cause := rfl
@[simp] theorem State.setPc_code (n : Nat) : (s.setPc n).code = s.code := rfl
@[simp] theorem State.setPc_stackCapacity (n : Nat) : (s.setPc n).stackCapacity = s.stackCapacity := rfl
@[simp] theorem State.setPc_input (n : Nat) : (s.setPc n).input = s.input := rfl
@[simp] theorem State.setPc_events (n : Nat) : (s.setPc n).events = s.events := rfl
@[simp] theorem State.setPc_reg (n : Nat) (q : Fin 4) : (s.setPc n).reg q = s.reg q := rfl
@[simp] theorem State.setPc_readData (n : Nat) (k : Nat) : (s.setPc n).readData k = s.readData k := rfl
@[simp] theorem State.setPc_readCell (n : Nat) (k : Nat) : (s.setPc n).readCell k = s.readCell k := rfl
@[simp] theorem State.setPc_codeLength (n : Nat) : (s.setPc n).codeLength = s.codeLength := rfl

/-! ### advance -/

@[simp] theorem State.advance_x (n : Nat) : (s.advance n).x = s.x := rfl
@[simp] theorem State.advance_pc (n : Nat) : (s.advance n).pc = s.pc + n := rfl
@[simp] theorem State.advance_stack (n : Nat) : (s.advance n).stack = s.stack := rfl
@[simp] theorem State.advance_dm (n : Nat) : (s.advance n).dm = s.dm := rfl
@[simp] theorem State.advance_fb (n : Nat) : (s.advance n).fb = s.fb := rfl
@[simp] theorem State.advance_halted (n : Nat) : (s.advance n).halted = s.halted := rfl
@[simp] theorem State.advance_cause (n : Nat) : (s.advance n).cause = s.cause := rfl
@[simp] theorem State.advance_code (n : Nat) : (s.advance n).code = s.code := rfl
@[simp] theorem State.advance_stackCapacity (n : Nat) : (s.advance n).stackCapacity = s.stackCapacity := rfl
@[simp] theorem State.advance_input (n : Nat) : (s.advance n).input = s.input := rfl
@[simp] theorem State.advance_events (n : Nat) : (s.advance n).events = s.events := rfl
@[simp] theorem State.advance_reg (n : Nat) (q : Fin 4) : (s.advance n).reg q = s.reg q := rfl
@[simp] theorem State.advance_readData (n : Nat) (k : Nat) : (s.advance n).readData k = s.readData k := rfl
@[simp] theorem State.advance_readCell (n : Nat) (k : Nat) : (s.advance n).readCell k = s.readCell k := rfl
@[simp] theorem State.advance_codeLength (n : Nat) : (s.advance n).codeLength = s.codeLength := rfl

/-! ### transfer -/

@[simp] theorem State.transfer_x (n : Nat) : (s.transfer n).x = s.x := rfl
@[simp] theorem State.transfer_pc (n : Nat) : (s.transfer n).pc = n := rfl
@[simp] theorem State.transfer_stack (n : Nat) : (s.transfer n).stack = s.stack := rfl
@[simp] theorem State.transfer_dm (n : Nat) : (s.transfer n).dm = s.dm := rfl
@[simp] theorem State.transfer_fb (n : Nat) : (s.transfer n).fb = s.fb := rfl
@[simp] theorem State.transfer_halted (n : Nat) : (s.transfer n).halted = s.halted := rfl
@[simp] theorem State.transfer_cause (n : Nat) : (s.transfer n).cause = s.cause := rfl
@[simp] theorem State.transfer_code (n : Nat) : (s.transfer n).code = s.code := rfl
@[simp] theorem State.transfer_stackCapacity (n : Nat) : (s.transfer n).stackCapacity = s.stackCapacity := rfl
@[simp] theorem State.transfer_input (n : Nat) : (s.transfer n).input = s.input := rfl
@[simp] theorem State.transfer_events (n : Nat) : (s.transfer n).events = s.events := rfl
@[simp] theorem State.transfer_reg (n : Nat) (q : Fin 4) : (s.transfer n).reg q = s.reg q := rfl
@[simp] theorem State.transfer_readData (n : Nat) (k : Nat) : (s.transfer n).readData k = s.readData k := rfl
@[simp] theorem State.transfer_readCell (n : Nat) (k : Nat) : (s.transfer n).readCell k = s.readCell k := rfl
@[simp] theorem State.transfer_codeLength (n : Nat) : (s.transfer n).codeLength = s.codeLength := rfl

/-! ### setStack -/

@[simp] theorem State.setStack_x (l : List Word) : (s.setStack l).x = s.x := rfl
@[simp] theorem State.setStack_pc (l : List Word) : (s.setStack l).pc = s.pc := rfl
@[simp] theorem State.setStack_stack (l : List Word) : (s.setStack l).stack = l := rfl
@[simp] theorem State.setStack_dm (l : List Word) : (s.setStack l).dm = s.dm := rfl
@[simp] theorem State.setStack_fb (l : List Word) : (s.setStack l).fb = s.fb := rfl
@[simp] theorem State.setStack_halted (l : List Word) : (s.setStack l).halted = s.halted := rfl
@[simp] theorem State.setStack_cause (l : List Word) : (s.setStack l).cause = s.cause := rfl
@[simp] theorem State.setStack_code (l : List Word) : (s.setStack l).code = s.code := rfl
@[simp] theorem State.setStack_stackCapacity (l : List Word) : (s.setStack l).stackCapacity = s.stackCapacity := rfl
@[simp] theorem State.setStack_input (l : List Word) : (s.setStack l).input = s.input := rfl
@[simp] theorem State.setStack_events (l : List Word) : (s.setStack l).events = s.events := rfl
@[simp] theorem State.setStack_reg (l : List Word) (q : Fin 4) : (s.setStack l).reg q = s.reg q := rfl
@[simp] theorem State.setStack_readData (l : List Word) (k : Nat) : (s.setStack l).readData k = s.readData k := rfl
@[simp] theorem State.setStack_readCell (l : List Word) (k : Nat) : (s.setStack l).readCell k = s.readCell k := rfl
@[simp] theorem State.setStack_codeLength (l : List Word) : (s.setStack l).codeLength = s.codeLength := rfl

/-! ### replaceTop -/

@[simp] theorem State.replaceTop_x (n : Nat) (v : Word) : (s.replaceTop n v).x = s.x := rfl
@[simp] theorem State.replaceTop_pc (n : Nat) (v : Word) : (s.replaceTop n v).pc = s.pc := rfl
@[simp] theorem State.replaceTop_stack (n : Nat) (v : Word) : (s.replaceTop n v).stack = v :: s.stack.drop n := rfl
@[simp] theorem State.replaceTop_dm (n : Nat) (v : Word) : (s.replaceTop n v).dm = s.dm := rfl
@[simp] theorem State.replaceTop_fb (n : Nat) (v : Word) : (s.replaceTop n v).fb = s.fb := rfl
@[simp] theorem State.replaceTop_halted (n : Nat) (v : Word) : (s.replaceTop n v).halted = s.halted := rfl
@[simp] theorem State.replaceTop_cause (n : Nat) (v : Word) : (s.replaceTop n v).cause = s.cause := rfl
@[simp] theorem State.replaceTop_code (n : Nat) (v : Word) : (s.replaceTop n v).code = s.code := rfl
@[simp] theorem State.replaceTop_stackCapacity (n : Nat) (v : Word) : (s.replaceTop n v).stackCapacity = s.stackCapacity := rfl
@[simp] theorem State.replaceTop_input (n : Nat) (v : Word) : (s.replaceTop n v).input = s.input := rfl
@[simp] theorem State.replaceTop_events (n : Nat) (v : Word) : (s.replaceTop n v).events = s.events := rfl
@[simp] theorem State.replaceTop_reg (n : Nat) (v : Word) (q : Fin 4) : (s.replaceTop n v).reg q = s.reg q := rfl
@[simp] theorem State.replaceTop_readData (n : Nat) (v : Word) (k : Nat) : (s.replaceTop n v).readData k = s.readData k := rfl
@[simp] theorem State.replaceTop_readCell (n : Nat) (v : Word) (k : Nat) : (s.replaceTop n v).readCell k = s.readCell k := rfl
@[simp] theorem State.replaceTop_codeLength (n : Nat) (v : Word) : (s.replaceTop n v).codeLength = s.codeLength := rfl

/-! ### emit -/

@[simp] theorem State.emit_x (e : Event) : (s.emit e).x = s.x := rfl
@[simp] theorem State.emit_pc (e : Event) : (s.emit e).pc = s.pc := rfl
@[simp] theorem State.emit_stack (e : Event) : (s.emit e).stack = s.stack := rfl
@[simp] theorem State.emit_dm (e : Event) : (s.emit e).dm = s.dm := rfl
@[simp] theorem State.emit_fb (e : Event) : (s.emit e).fb = s.fb := rfl
@[simp] theorem State.emit_halted (e : Event) : (s.emit e).halted = s.halted := rfl
@[simp] theorem State.emit_cause (e : Event) : (s.emit e).cause = s.cause := rfl
@[simp] theorem State.emit_code (e : Event) : (s.emit e).code = s.code := rfl
@[simp] theorem State.emit_stackCapacity (e : Event) : (s.emit e).stackCapacity = s.stackCapacity := rfl
@[simp] theorem State.emit_input (e : Event) : (s.emit e).input = s.input := rfl
@[simp] theorem State.emit_events (e : Event) : (s.emit e).events = s.events ++ [e] := rfl
@[simp] theorem State.emit_reg (e : Event) (q : Fin 4) : (s.emit e).reg q = s.reg q := rfl
@[simp] theorem State.emit_readData (e : Event) (k : Nat) : (s.emit e).readData k = s.readData k := rfl
@[simp] theorem State.emit_readCell (e : Event) (k : Nat) : (s.emit e).readCell k = s.readCell k := rfl
@[simp] theorem State.emit_codeLength (e : Event) : (s.emit e).codeLength = s.codeLength := rfl

/-! ### setInput -/

@[simp] theorem State.setInput_x (l : InputSource) : (s.setInput l).x = s.x := rfl
@[simp] theorem State.setInput_pc (l : InputSource) : (s.setInput l).pc = s.pc := rfl
@[simp] theorem State.setInput_stack (l : InputSource) : (s.setInput l).stack = s.stack := rfl
@[simp] theorem State.setInput_dm (l : InputSource) : (s.setInput l).dm = s.dm := rfl
@[simp] theorem State.setInput_fb (l : InputSource) : (s.setInput l).fb = s.fb := rfl
@[simp] theorem State.setInput_halted (l : InputSource) : (s.setInput l).halted = s.halted := rfl
@[simp] theorem State.setInput_cause (l : InputSource) : (s.setInput l).cause = s.cause := rfl
@[simp] theorem State.setInput_code (l : InputSource) : (s.setInput l).code = s.code := rfl
@[simp] theorem State.setInput_stackCapacity (l : InputSource) : (s.setInput l).stackCapacity = s.stackCapacity := rfl
@[simp] theorem State.setInput_input (l : InputSource) : (s.setInput l).input = l := rfl
@[simp] theorem State.setInput_events (l : InputSource) : (s.setInput l).events = s.events := rfl
@[simp] theorem State.setInput_reg (l : InputSource) (q : Fin 4) : (s.setInput l).reg q = s.reg q := rfl
@[simp] theorem State.setInput_readData (l : InputSource) (k : Nat) : (s.setInput l).readData k = s.readData k := rfl
@[simp] theorem State.setInput_readCell (l : InputSource) (k : Nat) : (s.setInput l).readCell k = s.readCell k := rfl
@[simp] theorem State.setInput_codeLength (l : InputSource) : (s.setInput l).codeLength = s.codeLength := rfl

/-! ### halt -/

@[simp] theorem State.halt_x : (s.halt).x = s.x := rfl
@[simp] theorem State.halt_pc : (s.halt).pc = s.pc := rfl
@[simp] theorem State.halt_stack : (s.halt).stack = s.stack := rfl
@[simp] theorem State.halt_dm : (s.halt).dm = s.dm := rfl
@[simp] theorem State.halt_fb : (s.halt).fb = s.fb := rfl
@[simp] theorem State.halt_halted : (s.halt).halted = true := rfl
@[simp] theorem State.halt_cause : (s.halt).cause = s.cause := rfl
@[simp] theorem State.halt_code : (s.halt).code = s.code := rfl
@[simp] theorem State.halt_stackCapacity : (s.halt).stackCapacity = s.stackCapacity := rfl
@[simp] theorem State.halt_input : (s.halt).input = s.input := rfl
@[simp] theorem State.halt_events : (s.halt).events = s.events := rfl
@[simp] theorem State.halt_reg (q : Fin 4) : (s.halt).reg q = s.reg q := rfl
@[simp] theorem State.halt_readData (k : Nat) : (s.halt).readData k = s.readData k := rfl
@[simp] theorem State.halt_readCell (k : Nat) : (s.halt).readCell k = s.readCell k := rfl
@[simp] theorem State.halt_codeLength : (s.halt).codeLength = s.codeLength := rfl

/-! ### setCause -/

@[simp] theorem State.setCause_x (c : Cause) : (s.setCause c).x = s.x := rfl
@[simp] theorem State.setCause_pc (c : Cause) : (s.setCause c).pc = s.pc := rfl
@[simp] theorem State.setCause_stack (c : Cause) : (s.setCause c).stack = s.stack := rfl
@[simp] theorem State.setCause_dm (c : Cause) : (s.setCause c).dm = s.dm := rfl
@[simp] theorem State.setCause_fb (c : Cause) : (s.setCause c).fb = s.fb := rfl
@[simp] theorem State.setCause_halted (c : Cause) : (s.setCause c).halted = s.halted := rfl
@[simp] theorem State.setCause_cause (c : Cause) : (s.setCause c).cause = some c := rfl
@[simp] theorem State.setCause_code (c : Cause) : (s.setCause c).code = s.code := rfl
@[simp] theorem State.setCause_stackCapacity (c : Cause) : (s.setCause c).stackCapacity = s.stackCapacity := rfl
@[simp] theorem State.setCause_input (c : Cause) : (s.setCause c).input = s.input := rfl
@[simp] theorem State.setCause_events (c : Cause) : (s.setCause c).events = s.events := rfl
@[simp] theorem State.setCause_reg (c : Cause) (q : Fin 4) : (s.setCause c).reg q = s.reg q := rfl
@[simp] theorem State.setCause_readData (c : Cause) (k : Nat) : (s.setCause c).readData k = s.readData k := rfl
@[simp] theorem State.setCause_readCell (c : Cause) (k : Nat) : (s.setCause c).readCell k = s.readCell k := rfl
@[simp] theorem State.setCause_codeLength (c : Cause) : (s.setCause c).codeLength = s.codeLength := rfl

/-! ### boot and reset -/

variable (code : List Byte) (input : InputSource) (capacity : Nat)

@[simp] theorem State.boot_x : (State.boot code input capacity).x = Vector.replicate 4 0 := rfl
@[simp] theorem State.boot_pc : (State.boot code input capacity).pc = 0 := rfl
@[simp] theorem State.boot_stack : (State.boot code input capacity).stack = [] := rfl
@[simp] theorem State.boot_dm : (State.boot code input capacity).dm = [] := rfl
@[simp] theorem State.boot_fb : (State.boot code input capacity).fb = [] := rfl
@[simp] theorem State.boot_halted : (State.boot code input capacity).halted = false := rfl
@[simp] theorem State.boot_cause : (State.boot code input capacity).cause = none := rfl
@[simp] theorem State.boot_code : (State.boot code input capacity).code = code := rfl
@[simp] theorem State.boot_stackCapacity : (State.boot code input capacity).stackCapacity = capacity := rfl
@[simp] theorem State.boot_input : (State.boot code input capacity).input = input := rfl
@[simp] theorem State.boot_events : (State.boot code input capacity).events = [] := rfl

/-! ### Registers -/

/-- A register reads the value last written to it (R21). -/
@[simp] theorem State.setReg_reg_same (r : Fin 4) (v : Word) : (s.setReg r v).reg r = v := by
  simp [State.reg, State.setReg]

/-- A write to a register leaves every other one as it was (R21). -/
theorem State.setReg_reg_other {r q : Fin 4} (v : Word) (h : q ≠ r) : (s.setReg r v).reg q = s.reg q := by
  have : (r : Nat) ≠ q := fun e => h (Fin.ext e.symm)
  simp [State.reg, State.setReg, this]

end Sys2Proof.Machine
end

