-- ==== Sys2Proof/Laws/Ops.lean ====
section
/-! SUPPORT. Laws/Ops.lean: for each shared operation, once, everything it can do: in which cases it goes on, with what, and
in which cases it raises which fault on the untouched state. The lemmas named `_next` invert it, those named `_ok` and
`_raises` run it. -/

namespace Sys2Proof.Machine

variable {s t : State}

/-- A raise is a next state that differs in `cause` only (R232). -/
@[simp] theorem raise_next {c : Cause} : raise c s = .next t ↔ t = s.setCause c := by
  simp [raise, eq_comm]

/-! ### The stack port -/

/-- A push below the capacity goes on with the value on top. -/
theorem pushing_ok {v : Word} {k : State → Result} (h : s.stack.length < s.stackCapacity) :
    pushing v s k = k (s.setStack (v :: s.stack)) := by
  simp [pushing, State.push, h]

/-- A push on a full stack raises StackOverflow. -/
theorem pushing_raises {v : Word} {k : State → Result} (h : s.stackCapacity ≤ s.stack.length) :
    pushing v s k = raise .stackOverflow s := by
  simp [pushing, State.push, Nat.not_lt.2 h]

/-- Everything a push can do. -/
theorem pushing_next {v : Word} {k : State → Result} (h : pushing v s k = .next t) :
    (s.stack.length < s.stackCapacity ∧ k (s.setStack (v :: s.stack)) = .next t)
      ∨ (s.stackCapacity ≤ s.stack.length ∧ t = s.setCause .stackOverflow) := by
  rcases Nat.lt_or_ge s.stack.length s.stackCapacity with hc | hc
  · exact .inl ⟨hc, by rwa [pushing_ok hc] at h⟩
  · exact .inr ⟨hc, by rwa [pushing_raises hc, raise_next] at h⟩

/-- A pop takes the top off. -/
theorem popping_ok {v : Word} {rest : List Word} {k : Word → State → Result} (h : s.stack = v :: rest) :
    popping s k = k v (s.setStack rest) := by
  simp [popping, State.pop, h]

/-- A pop of an empty stack raises StackUnderflow. -/
theorem popping_raises {k : Word → State → Result} (h : s.stack = []) : popping s k = raise .stackUnderflow s := by
  simp [popping, State.pop, h]

/-- Everything a pop can do. -/
theorem popping_next {k : Word → State → Result} (h : popping s k = .next t) :
    (∃ v rest, s.stack = v :: rest ∧ k v (s.setStack rest) = .next t)
      ∨ (s.stack = [] ∧ t = s.setCause .stackUnderflow) := by
  cases hs : s.stack with
  | nil => exact .inr ⟨rfl, by rwa [popping_raises hs, raise_next] at h⟩
  | cons v rest => exact .inl ⟨v, rest, rfl, by rwa [popping_ok hs] at h⟩

/-- A peek of the top. -/
theorem peekTop_ok {v : Word} {rest : List Word} {k : Word → Result} (h : s.stack = v :: rest) : peekTop s k = k v := by
  simp [peekTop, State.peek, h]

/-- A peek of an empty stack raises StackUnderflow. -/
theorem peekTop_raises {k : Word → Result} (h : s.stack = []) : peekTop s k = raise .stackUnderflow s := by
  simp [peekTop, State.peek, h]

/-- Everything a peek can do. -/
theorem peekTop_next {k : Word → Result} (h : peekTop s k = .next t) :
    (∃ v rest, s.stack = v :: rest ∧ k v = .next t) ∨ (s.stack = [] ∧ t = s.setCause .stackUnderflow) := by
  cases hs : s.stack with
  | nil => exact .inr ⟨rfl, by rwa [peekTop_raises hs, raise_next] at h⟩
  | cons v rest => exact .inl ⟨v, rest, rfl, by rwa [peekTop_ok hs] at h⟩

/-- A peek of the top two entries. -/
theorem peekTopTwo_ok {v u : Word} {rest : List Word} {k : Word → Word → Result} (h : s.stack = v :: u :: rest) :
    peekTopTwo s k = k v u := by
  simp [peekTopTwo, State.peek, h]

/-- A peek of two entries with fewer than two there raises StackUnderflow. -/
theorem peekTopTwo_raises {k : Word → Word → Result} (h : s.stack.length < 2) :
    peekTopTwo s k = raise .stackUnderflow s := by
  unfold peekTopTwo State.peek
  rcases hs : s.stack with _ | ⟨a, _ | ⟨b, r⟩⟩ <;> simp [hs] at h ⊢

/-- Everything a peek of two entries can do. -/
theorem peekTopTwo_next {k : Word → Word → Result} (h : peekTopTwo s k = .next t) :
    (∃ v u rest, s.stack = v :: u :: rest ∧ k v u = .next t)
      ∨ (s.stack.length < 2 ∧ t = s.setCause .stackUnderflow) := by
  rcases hs : s.stack with _ | ⟨v, _ | ⟨u, rest⟩⟩
  · exact .inr ⟨by simp, by rwa [peekTopTwo_raises (by simp [hs]), raise_next] at h⟩
  · exact .inr ⟨by simp, by rwa [peekTopTwo_raises (by simp [hs]), raise_next] at h⟩
  · exact .inl ⟨v, u, rest, rfl, by rwa [peekTopTwo_ok hs] at h⟩

/-! ### The operand checks -/

/-- A legal register word goes on with its register. -/
theorem withReg_ok {w : Word} {r : Fin 4} {k : Fin 4 → Result} (h : w.toInt = (r : Nat)) : withReg w s k = k r := by
  simp [withReg, regIndex_eq_some.2 h]

/-- An illegal register word raises InvalidRegister. -/
theorem withReg_raises {w : Word} {k : Fin 4 → Result} (h : w.toInt < 0 ∨ 3 < w.toInt) :
    withReg w s k = raise .invalidRegister s := by
  simp [withReg, regIndex_eq_none.2 h]

/-- Everything the register check can do. -/
theorem withReg_next {w : Word} {k : Fin 4 → Result} (h : withReg w s k = .next t) :
    (∃ r : Fin 4, w.toInt = (r : Nat) ∧ k r = .next t)
      ∨ ((w.toInt < 0 ∨ 3 < w.toInt) ∧ t = s.setCause .invalidRegister) := by
  cases hr : regIndex w with
  | none => exact .inr ⟨regIndex_eq_none.1 hr, by simpa [withReg, hr] using h⟩
  | some r => exact .inl ⟨r, regIndex_eq_some.1 hr, by simpa [withReg, hr] using h⟩

/-- An index inside data memory goes on. -/
theorem withIndex_ok {i : Int} {n : Nat} {k : Nat → Result} (h : i = n ∧ n < dmemWords) : withIndex i s k = k n := by
  simp [withIndex, dataIndex_eq_some.2 h]

/-- An index outside it raises MemoryOutOfBounds. -/
theorem withIndex_raises {i : Int} {k : Nat → Result} (h : i < 0 ∨ 1024 ≤ i) :
    withIndex i s k = raise .memoryOutOfBounds s := by
  simp [withIndex, dataIndex_eq_none.2 h]

/-- Everything the bounds check can do. -/
theorem withIndex_next {i : Int} {k : Nat → Result} (h : withIndex i s k = .next t) :
    (∃ n : Nat, (i = n ∧ n < dmemWords) ∧ k n = .next t)
      ∨ ((i < 0 ∨ 1024 ≤ i) ∧ t = s.setCause .memoryOutOfBounds) := by
  cases hi : dataIndex i with
  | none => exact .inr ⟨dataIndex_eq_none.1 hi, by simpa [withIndex, hi] using h⟩
  | some n => exact .inl ⟨n, dataIndex_eq_some.1 hi, by simpa [withIndex, hi] using h⟩

/-- Everything `RAM_REG` can do. -/
theorem withRamReg_next {w1 : Word} {k : Nat → Result} (h : withRamReg w1 s k = .next t) :
    (∃ n : Nat, n < dmemWords ∧ k n = .next t) ∨ (∃ c, t = s.setCause c) := by
  rcases withReg_next h with ⟨r, -, h⟩ | ⟨-, rfl⟩
  · rcases withIndex_next h with ⟨n, ⟨-, hn⟩, h⟩ | ⟨-, rfl⟩
    · exact .inl ⟨n, hn, h⟩
    · exact .inr ⟨_, rfl⟩
  · exact .inr ⟨_, rfl⟩

/-- Everything `RAM_REG_IMMED` can do. -/
theorem withRamRegImmed_next {w1 w2 : Word} {k : Nat → Result} (h : withRamRegImmed w1 w2 s k = .next t) :
    (∃ n : Nat, n < dmemWords ∧ k n = .next t) ∨ (∃ c, t = s.setCause c) := by
  rcases withReg_next h with ⟨r, -, h⟩ | ⟨-, rfl⟩
  · rcases withIndex_next h with ⟨n, ⟨-, hn⟩, h⟩ | ⟨-, rfl⟩
    · exact .inl ⟨n, hn, h⟩
    · exact .inr ⟨_, rfl⟩
  · exact .inr ⟨_, rfl⟩

/-- A target inside the code goes on. -/
theorem withTarget_ok {tgt : Int} {n : Nat} {k : Nat → Result} (h : tgt = n ∧ n < s.codeLength) :
    withTarget tgt s k = k n := by
  simp [withTarget, codeTarget_eq_some.2 h]

/-- A target outside it raises ControlTransferOutOfBounds. -/
theorem withTarget_raises {tgt : Int} {k : Nat → Result} (h : tgt < 0 ∨ (s.codeLength : Int) ≤ tgt) :
    withTarget tgt s k = raise .controlTransferOutOfBounds s := by
  simp [withTarget, codeTarget_eq_none.2 h]

/-- Everything the target check can do. -/
theorem withTarget_next {tgt : Int} {k : Nat → Result} (h : withTarget tgt s k = .next t) :
    (∃ n : Nat, (tgt = n ∧ n < s.codeLength) ∧ k n = .next t)
      ∨ ((tgt < 0 ∨ (s.codeLength : Int) ≤ tgt) ∧ t = s.setCause .controlTransferOutOfBounds) := by
  cases ht : codeTarget s.codeLength tgt with
  | none => exact .inr ⟨codeTarget_eq_none.1 ht, by simpa [withTarget, ht] using h⟩
  | some n => exact .inl ⟨n, codeTarget_eq_some.1 ht, by simpa [withTarget, ht] using h⟩

/-- Everything the descriptor check can do. -/
theorem withPixel_next {d : Int} {k : Pixel → Result} (h : withPixel d s k = .next t) :
    (∃ p, pixelOf d = some p ∧ k p = .next t) ∨ (pixelOf d = none ∧ t = s.setCause .pixelOutOfBounds) := by
  cases hp : pixelOf d with
  | none => exact .inr ⟨rfl, by simpa [withPixel, hp] using h⟩
  | some p => exact .inl ⟨p, rfl, by simpa [withPixel, hp] using h⟩

/-! ### The shared operations of the families -/

/-- Everything a pushing instruction can do after its operand. -/
theorem pushAndAdvance_next {v : Word} {len : Nat} (h : pushAndAdvance v len s = .next t) :
    (s.stack.length < s.stackCapacity ∧ t = (s.setStack (v :: s.stack)).advance len)
      ∨ (s.stackCapacity ≤ s.stack.length ∧ t = s.setCause .stackOverflow) := by
  rcases pushing_next h with ⟨hc, h⟩ | h
  · exact .inl ⟨hc, by simpa [eq_comm] using h⟩
  · exact .inr h

/-- Everything a store can do after its index. -/
theorem popToData_next {i len : Nat} (h : popToData i len s = .next t) :
    (∃ v rest, s.stack = v :: rest ∧ t = ((s.setStack rest).writeData i v).advance len)
      ∨ (s.stack = [] ∧ t = s.setCause .stackUnderflow) := by
  rcases popping_next h with ⟨v, rest, hs, h⟩ | h
  · exact .inl ⟨v, rest, hs, by simpa [eq_comm] using h⟩
  · exact .inr h

/-- Everything a binary operation can do. -/
theorem binary_next {f : Word → Word → Word} (h : binary f s = .next t) :
    (∃ v u rest, s.stack = v :: u :: rest ∧ t = (s.setStack (f u v :: rest)).advance 1)
      ∨ (s.stack.length < 2 ∧ t = s.setCause .stackUnderflow) := by
  rcases peekTopTwo_next h with ⟨v, u, rest, hs, h⟩ | h
  · refine .inl ⟨v, u, rest, hs, ?_⟩
    simpa [eq_comm, State.replaceTop, hs] using h
  · exact .inr h

/-- Everything an unconditional jump can do. -/
theorem jumpTo_next {w1 : Word} (h : jumpTo w1 s = .next t) :
    (∃ n : Nat, (w1.toInt = n ∧ n < s.codeLength) ∧ t = s.transfer n)
      ∨ ((w1.toInt < 0 ∨ (s.codeLength : Int) ≤ w1.toInt) ∧ t = s.setCause .controlTransferOutOfBounds) := by
  rcases withTarget_next h with ⟨n, hn, h⟩ | h
  · exact .inl ⟨n, hn, by simpa [eq_comm] using h⟩
  · exact .inr h

/-- Everything a call can do. -/
theorem callTo_next {w1 : Word} (h : callTo w1 s = .next t) :
    (∃ n : Nat, (w1.toInt = n ∧ n < s.codeLength) ∧ s.stack.length < s.stackCapacity
        ∧ t = (s.setStack (s.link :: s.stack)).transfer n)
      ∨ (∃ c, t = s.setCause c) := by
  rcases withTarget_next h with ⟨n, hn, h⟩ | ⟨-, rfl⟩
  · rcases pushing_next h with ⟨hc, h⟩ | ⟨-, rfl⟩
    · exact .inl ⟨n, hn, hc, by simpa [eq_comm] using h⟩
    · exact .inr ⟨_, rfl⟩
  · exact .inr ⟨_, rfl⟩

/-- Everything a conditional jump can do: it is taken as an unconditional jump is, or it falls through. -/
theorem jumpIf_next {c : Cond} {w1 : Word} (h : jumpIf c w1 s = .next t) :
    (∃ v u rest, s.stack = v :: u :: rest ∧ c.holds v u = true ∧ jumpTo w1 s = .next t)
      ∨ (∃ v u rest, s.stack = v :: u :: rest ∧ c.holds v u = false ∧ t = s.advance 5)
      ∨ (s.stack.length < 2 ∧ t = s.setCause .stackUnderflow) := by
  rcases peekTopTwo_next h with ⟨v, u, rest, hs, h⟩ | h
  · cases hc : c.holds v u with
    | true => exact .inl ⟨v, u, rest, hs, hc, by simpa [hc] using h⟩
    | false => exact .inr (.inl ⟨v, u, rest, hs, hc, by simpa [hc, eq_comm] using h⟩)
  · exact .inr (.inr h)

/-- Everything a pixel write can do. -/
theorem pixelWrite_next {d : Int} (h : pixelWrite d s = .next t) :
    (∃ p, pixelOf d = some p ∧ t = (s.writePixel p).advance 5)
      ∨ (pixelOf d = none ∧ t = s.setCause .pixelOutOfBounds) := by
  rcases withPixel_next h with ⟨p, hp, h⟩ | h
  · exact .inl ⟨p, hp, by simpa [eq_comm] using h⟩
  · exact .inr h

/-- A value that waits in the queue is presented first. -/
@[simp] theorem InputSource.present_queued (n : Word) (later : List Word) (beyond : Option Nat) :
    InputSource.present ⟨n :: later, beyond⟩ = some (n, ⟨later, beyond⟩) := rfl

/-- Behind the queue a stream that does not end presents its next value. -/
@[simp] theorem InputSource.present_endless (k : Nat) :
    InputSource.present ⟨[], some k⟩ = some (Config.inputStream k, ⟨[], some (k + 1)⟩) := rfl

/-- A stream that has ended presents nothing. -/
@[simp] theorem InputSource.present_ended : InputSource.present ⟨[], none⟩ = none := rfl

/-- Exactly a stream that has ended presents nothing. -/
theorem InputSource.present_eq_none {i : InputSource} : i.present = none ↔ i.queued = [] ∧ i.beyond = none := by
  rcases i with ⟨_ | ⟨n, later⟩, _ | k⟩ <;> simp

/-- Presenting a value does not turn a stream that ends into one that does not, nor the other way round. -/
theorem InputSource.present_beyond {i rest : InputSource} {n : Word} (h : i.present = some (n, rest)) :
    rest.beyond.isSome = i.beyond.isSome := by
  rcases i with ⟨_ | ⟨m, later⟩, _ | k⟩ <;> simp at h <;> simp [← h.2]

/-- Everything receiving a value can do that is a next state: the first value to come is consumed. -/
theorem receiving_next {k : Word → State → Result} (h : receiving s k = .next t) :
    ∃ n rest, s.input.present = some (n, rest) ∧ k n ((s.setInput rest).emit (.input n)) = .next t := by
  cases hi : s.input.present with
  | none => simp [receiving, hi] at h
  | some p => exact ⟨p.1, p.2, rfl, by simpa [receiving, hi] using h⟩

end Sys2Proof.Machine
end

