-- ==== Sys2Proof/Laws/PerInstr.lean ====
section
/-! SUPPORT. Laws/PerInstr.lean: one family of facts about every instruction as syntax: the form of its encoding. -/

namespace Sys2Proof.Laws

/-- The encoding has the instruction's length, begins with its opcode byte, and that opcode has a row of the opcode map whose
mode has the same length (R90, R91, R104). -/
def EncodedForm.Statement (i : Instr) : Prop :=
  (encode i).length = i.length ∧ (encode i).head? = some (BitVec.ofNat 8 i.opcode)
    ∧ ∃ row, decodeOpcode i.opcode = some row ∧ row.opcode = i.opcode ∧ row.mode.length = i.length

theorem EncodedForm.nop : EncodedForm.Statement .nop := ⟨rfl, rfl, _, rfl, rfl, rfl⟩
theorem EncodedForm.pushN (w1 : Word) : EncodedForm.Statement (.pushN w1) := ⟨rfl, rfl, _, rfl, rfl, rfl⟩
theorem EncodedForm.popR (w1 : Word) : EncodedForm.Statement (.popR w1) := ⟨rfl, rfl, _, rfl, rfl, rfl⟩
theorem EncodedForm.add : EncodedForm.Statement .add := ⟨rfl, rfl, _, rfl, rfl, rfl⟩
theorem EncodedForm.sub : EncodedForm.Statement .sub := ⟨rfl, rfl, _, rfl, rfl, rfl⟩
theorem EncodedForm.mul : EncodedForm.Statement .mul := ⟨rfl, rfl, _, rfl, rfl, rfl⟩
theorem EncodedForm.div : EncodedForm.Statement .div := ⟨rfl, rfl, _, rfl, rfl, rfl⟩
theorem EncodedForm.end_ : EncodedForm.Statement .end_ := ⟨rfl, rfl, _, rfl, rfl, rfl⟩
theorem EncodedForm.in_ : EncodedForm.Statement .in_ := ⟨rfl, rfl, _, rfl, rfl, rfl⟩
theorem EncodedForm.out : EncodedForm.Statement .out := ⟨rfl, rfl, _, rfl, rfl, rfl⟩
theorem EncodedForm.callLabel (w1 : Word) : EncodedForm.Statement (.callLabel w1) := ⟨rfl, rfl, _, rfl, rfl, rfl⟩
theorem EncodedForm.pushR (w1 : Word) : EncodedForm.Statement (.pushR w1) := ⟨rfl, rfl, _, rfl, rfl, rfl⟩
theorem EncodedForm.callN (w1 : Word) : EncodedForm.Statement (.callN w1) := ⟨rfl, rfl, _, rfl, rfl, rfl⟩
theorem EncodedForm.ret : EncodedForm.Statement .ret := ⟨rfl, rfl, _, rfl, rfl, rfl⟩
theorem EncodedForm.sqrt : EncodedForm.Statement .sqrt := ⟨rfl, rfl, _, rfl, rfl, rfl⟩
theorem EncodedForm.incR (w1 : Word) : EncodedForm.Statement (.incR w1) := ⟨rfl, rfl, _, rfl, rfl, rfl⟩
theorem EncodedForm.pixN (w1 : Word) : EncodedForm.Statement (.pixN w1) := ⟨rfl, rfl, _, rfl, rfl, rfl⟩
theorem EncodedForm.pixR (w1 : Word) : EncodedForm.Statement (.pixR w1) := ⟨rfl, rfl, _, rfl, rfl, rfl⟩
theorem EncodedForm.draw : EncodedForm.Statement .draw := ⟨rfl, rfl, _, rfl, rfl, rfl⟩
theorem EncodedForm.delayN (w1 : Word) : EncodedForm.Statement (.delayN w1) := ⟨rfl, rfl, _, rfl, rfl, rfl⟩
theorem EncodedForm.jmpLabel (w1 : Word) : EncodedForm.Statement (.jmpLabel w1) := ⟨rfl, rfl, _, rfl, rfl, rfl⟩
theorem EncodedForm.jmpN (w1 : Word) : EncodedForm.Statement (.jmpN w1) := ⟨rfl, rfl, _, rfl, rfl, rfl⟩
theorem EncodedForm.jaLabel (w1 : Word) : EncodedForm.Statement (.jaLabel w1) := ⟨rfl, rfl, _, rfl, rfl, rfl⟩
theorem EncodedForm.jaN (w1 : Word) : EncodedForm.Statement (.jaN w1) := ⟨rfl, rfl, _, rfl, rfl, rfl⟩
theorem EncodedForm.jaeLabel (w1 : Word) : EncodedForm.Statement (.jaeLabel w1) := ⟨rfl, rfl, _, rfl, rfl, rfl⟩
theorem EncodedForm.jaeN (w1 : Word) : EncodedForm.Statement (.jaeN w1) := ⟨rfl, rfl, _, rfl, rfl, rfl⟩
theorem EncodedForm.jbLabel (w1 : Word) : EncodedForm.Statement (.jbLabel w1) := ⟨rfl, rfl, _, rfl, rfl, rfl⟩
theorem EncodedForm.jbN (w1 : Word) : EncodedForm.Statement (.jbN w1) := ⟨rfl, rfl, _, rfl, rfl, rfl⟩
theorem EncodedForm.jbeLabel (w1 : Word) : EncodedForm.Statement (.jbeLabel w1) := ⟨rfl, rfl, _, rfl, rfl, rfl⟩
theorem EncodedForm.jbeN (w1 : Word) : EncodedForm.Statement (.jbeN w1) := ⟨rfl, rfl, _, rfl, rfl, rfl⟩
theorem EncodedForm.jeLabel (w1 : Word) : EncodedForm.Statement (.jeLabel w1) := ⟨rfl, rfl, _, rfl, rfl, rfl⟩
theorem EncodedForm.jeN (w1 : Word) : EncodedForm.Statement (.jeN w1) := ⟨rfl, rfl, _, rfl, rfl, rfl⟩
theorem EncodedForm.jneLabel (w1 : Word) : EncodedForm.Statement (.jneLabel w1) := ⟨rfl, rfl, _, rfl, rfl, rfl⟩
theorem EncodedForm.jneN (w1 : Word) : EncodedForm.Statement (.jneN w1) := ⟨rfl, rfl, _, rfl, rfl, rfl⟩
theorem EncodedForm.pushMemK (w1 : Word) : EncodedForm.Statement (.pushMemK w1) := ⟨rfl, rfl, _, rfl, rfl, rfl⟩
theorem EncodedForm.pushMemR (w1 : Word) : EncodedForm.Statement (.pushMemR w1) := ⟨rfl, rfl, _, rfl, rfl, rfl⟩
theorem EncodedForm.pushMemRD (w1 w2 : Word) : EncodedForm.Statement (.pushMemRD w1 w2) := ⟨rfl, rfl, _, rfl, rfl, rfl⟩
theorem EncodedForm.popMemK (w1 : Word) : EncodedForm.Statement (.popMemK w1) := ⟨rfl, rfl, _, rfl, rfl, rfl⟩
theorem EncodedForm.popMemR (w1 : Word) : EncodedForm.Statement (.popMemR w1) := ⟨rfl, rfl, _, rfl, rfl, rfl⟩
theorem EncodedForm.popMemRD (w1 w2 : Word) : EncodedForm.Statement (.popMemRD w1 w2) := ⟨rfl, rfl, _, rfl, rfl, rfl⟩

end Sys2Proof.Laws
end

