-- ==== Sys2Proof/Machine/Assembler.lean ====
section
/-! DEFINITION. Machine/Assembler.lean: the assembly syntax of 30_encoding.md R120 to R130 as a function from source text to
code bytes. It runs before the machine and shares the opcode map with the decoder (R104). Log 14 says what the spec leaves
open here, log 15 where the register names come from. -/

namespace Sys2Proof.Machine

/-- The assembly errors of R129, and one name of the model's own. They never appear in `cause`. -/
inductive AsmError where
  | unknownMnemonic
  | unmatchedOperandSyntax
  | unknownRegister
  | duplicateLabel
  | undefinedLabel
  | operandArityMismatch
  /-- A line that is neither a label definition nor a mnemonic with at most one operand (R120). DESIGN CHOICE (log 14). -/
  | badLine
deriving DecidableEq, Repr

/-- The text of a mnemonic (R120, R126). -/
def mnemonicText : Mnemonic → String
  | .nop => "nop" | .push => "push" | .pop => "pop" | .add => "add" | .sub => "sub" | .mul => "mul" | .div => "div"
  | .end_ => "end" | .in_ => "in" | .out => "out" | .call => "call" | .ret => "ret" | .sqrt => "sqrt" | .inc => "inc"
  | .pix => "pix" | .draw => "draw" | .delay => "delay" | .jmp => "jmp" | .ja => "ja" | .jae => "jae" | .jb => "jb"
  | .jbe => "jbe" | .je => "je" | .jne => "jne"

/-- The 24 mnemonics (R126). -/
def allMnemonics : List Mnemonic :=
  [.nop, .push, .pop, .add, .sub, .mul, .div, .end_, .in_, .out, .call, .ret, .sqrt, .inc, .pix, .draw, .delay,
    .jmp, .ja, .jae, .jb, .jbe, .je, .jne]

/-- The mnemonic a token names. -/
def mnemonicOf (token : List Char) : Option Mnemonic :=
  allMnemonics.find? (fun m => (mnemonicText m).toList == token)

/-- The control-transfer mnemonics, whose alphabetic operand is a label (R123). -/
def takesLabel (m : Mnemonic) : Bool := opcodeMap.any (fun r => r.mnemonic == m && r.mode == .label)

/-- The number of operands of a mnemonic (R126): 0 where its form is `NONE`, else 1. -/
def arity (m : Mnemonic) : Nat := if opcodeMap.any (fun r => r.mnemonic == m && r.mode == .none) then 0 else 1

/-- The opcode that a mnemonic and an addressing mode select (R126). -/
def overload (m : Mnemonic) (mode : Mode) : Option Nat :=
  (opcodeMap.find? (fun r => r.mnemonic == m && r.mode == mode)).map (·.opcode)

/-- The register a name stands for (R22, R124). PRESUMED (log 15): the names. -/
def registerIndex (name : List Char) : Option Word :=
  if name == "ax".toList then some 0
  else if name == "bx".toList then some 1
  else if name == "cx".toList then some 2
  else if name == "dx".toList then some 3
  else none

/-- A classified operand token (R122). A name is a register or a label by the mnemonic (R123). -/
inductive Operand where
  | none
  | number (n : Int)
  | name (text : List Char)
  | ramImmed (n : Nat)
  | ramReg (name : List Char)
  | ramRegImmed (name : List Char) (disp : Int)
deriving DecidableEq, Repr

/-- The value of a token of digits only. -/
def decimalValue (digits : List Char) : Option Nat :=
  if digits ≠ [] ∧ digits.all Char.isDigit then
    some (digits.foldl (fun n c => 10 * n + (c.toNat - '0'.toNat)) 0)
  else none

/-- The inside of a bracket token (R122, item 4). DESIGN CHOICE (log 14): the name of `[name+digits]` and `[name-digits]` begins
with a letter, as R122 says of `[name]` only, and ends before the first sign. -/
def classifyInside (inside : List Char) : Option Operand :=
  match decimalValue inside with
  | some n => some (.ramImmed n)
  | none =>
    if (inside.head?.map Char.isAlpha).getD false then
      let name := inside.takeWhile (fun c => c != '+' && c != '-')
      match inside.dropWhile (fun c => c != '+' && c != '-') with
      | [] => some (.ramReg name)
      | sign :: digits =>
        (decimalValue digits).map fun n => .ramRegImmed name (if sign == '-' then -(n : Int) else n)
    else none

/-- Operand classification in the priority order of R122; none is a classification failure. -/
def classify (token : List Char) : Option Operand :=
  match token with
  | [] => some .none
  | '[' :: rest => if rest.getLast? == some ']' then classifyInside rest.dropLast else none
  | '-' :: rest => (decimalValue rest).map fun n => .number (-(n : Int))
  | c :: rest =>
    if c.isDigit then (decimalValue (c :: rest)).map fun n => .number n
    else if c.isAlpha then some (.name (c :: rest))
    else none

/-- The addressing mode of an operand under a mnemonic (R122, R123). -/
def operandMode (m : Mnemonic) : Operand → Mode
  | .none => .none
  | .number _ => .number
  | .name _ => if takesLabel m then .label else .register
  | .ramImmed _ => .ramImmed
  | .ramReg _ => .ramReg
  | .ramRegImmed _ _ => .ramRegImmed

/-- What a line contributes: a label definition, an instruction, or a transfer to a label still to be resolved. -/
inductive AsmItem where
  | label (name : List Char)
  | instr (i : Instr)
  | toLabel (op : Nat) (name : List Char)
deriving DecidableEq, Repr

/-- A literal as an operand word; one outside the signed 32-bit range is rejected (R125, D31). -/
def literalWord (n : Int) : Except AsmError Word :=
  if -2147483648 ≤ n ∧ n ≤ 2147483647 then .ok (wrap32 n) else .error .unmatchedOperandSyntax

/-- The register word of a name (R124). -/
def registerWord (name : List Char) : Except AsmError Word :=
  match registerIndex name with
  | some w => .ok w
  | none => .error .unknownRegister

/-- The instruction of a selected opcode with its operand words. -/
def selected (op : Nat) (w1 w2 : Word) : Except AsmError AsmItem :=
  match instrOf op w1 w2 with
  | some i => .ok (.instr i)
  | none => .error .unmatchedOperandSyntax

/-- The operand words of an operand (R124, R125), for the opcode that the overload table selects (R126). -/
def itemOf (op : Nat) (label : Bool) : Operand → Except AsmError AsmItem
  | .none => selected op 0 0
  | .number n => do selected op (← literalWord n) 0
  | .name text => if label then .ok (.toLabel op text) else do selected op (← registerWord text) 0
  | .ramImmed n => do selected op (← literalWord n) 0
  | .ramReg name => do selected op (← registerWord name) 0
  | .ramRegImmed name disp => do selected op (← registerWord name) (← literalWord disp)

/-- Overload selection (R126): the arity first, then the operand's class, then the pair. The order is a DESIGN CHOICE
(log 14), seen only where a line has several errors. -/
def selectOverload (m : Mnemonic) (token : List Char) : Except AsmError AsmItem :=
  if (arity m == 0) != token.isEmpty then .error .operandArityMismatch
  else
    match classify token with
    | none => .error .unmatchedOperandSyntax
    | some operand =>
      match overload m (operandMode m operand) with
      | none => .error .unmatchedOperandSyntax
      | some op => itemOf op (takesLabel m) operand

/-- A mnemonic with its operand token, empty where there is none. -/
def parseInstruction (mnemonic operand : List Char) : Except AsmError AsmItem :=
  match mnemonicOf mnemonic with
  | none => .error .unknownMnemonic
  | some m => selectOverload m operand

/-- The token is a label definition (R121): it ends in a colon. -/
def isLabelDefinition (token : List Char) : Bool := token.getLast? == some ':'

/-- The name a label definition defines, which starts with a letter (R120, R122). -/
def labelName (token : List Char) : Except AsmError AsmItem :=
  if (token.head?.map Char.isAlpha).getD false then .ok (.label token.dropLast) else .error .badLine

/-- One line (R120): a label definition, or a mnemonic and at most one operand token. -/
def parseLine (tokens : List (List Char)) : Except AsmError AsmItem :=
  match tokens with
  | [t] => if isLabelDefinition t then labelName t else parseInstruction t []
  | [t, operand] => if isLabelDefinition t then .error .badLine else parseInstruction t operand
  | _ => .error .badLine

/-- All lines of a source, in order. -/
def parseLines : List (List (List Char)) → Except AsmError (List AsmItem)
  | [] => .ok []
  | l :: rest => do
    let i ← parseLine l
    let is ← parseLines rest
    .ok (i :: is)

/-- The bytes an item occupies (R120, R127): a label none, an instruction `1 + 4*words`. -/
def itemSize : AsmItem → Nat
  | .label _ => 0
  | .instr i => i.length
  | .toLabel _ _ => Mode.label.length

/-- The label table: names and byte offsets. -/
abbrev LabelTable := List (List Char × Nat)

/-- The offset of a label, none where it is not defined. -/
def labelOffset (table : LabelTable) (name : List Char) : Option Nat :=
  (table.find? (fun e => e.1 == name)).map (·.2)

/-- Pass 1 (R127) from a running byte offset: it counts lengths and records label offsets (R121). It answers the table and the
total length. -/
def pass1 : List AsmItem → Nat → LabelTable → Except AsmError (LabelTable × Nat)
  | [], offset, table => .ok (table, offset)
  | .label name :: rest, offset, table =>
    match labelOffset table name with
    | some _ => .error .duplicateLabel
    | none => pass1 rest offset ((name, offset) :: table)
  | .instr i :: rest, offset, table => pass1 rest (offset + itemSize (.instr i)) table
  | .toLabel op name :: rest, offset, table => pass1 rest (offset + itemSize (.toLabel op name)) table

/-- Pass 2 for one item (R127): a label definition emits nothing, a label operand is resolved. -/
def resolve (table : LabelTable) : AsmItem → Except AsmError (List Instr)
  | .label _ => .ok []
  | .instr i => .ok [i]
  | .toLabel op name =>
    match labelOffset table name with
    | none => .error .undefinedLabel
    | some offset =>
      match instrOf op (wrap32 offset) 0 with
      | some i => .ok [i]
      | none => .error .unmatchedOperandSyntax

/-- Pass 2 (R127): the instructions in order, every label operand resolved. -/
def pass2 (table : LabelTable) : List AsmItem → Except AsmError (List Instr)
  | [] => .ok []
  | item :: rest => do
    let here ← resolve table item
    let later ← pass2 table rest
    .ok (here ++ later)

/-- The instructions of a source of lines of tokens. DESIGN CHOICE (log 14): where a source has several errors, those of the
lines come before DuplicateLabel of pass 1, wherever they stand, and that before UndefinedLabel of pass 2. -/
def assembleInstrs (lines : List (List (List Char))) : Except AsmError (List Instr) := do
  let items ← parseLines lines
  let (table, _) ← pass1 items 0 []
  pass2 table items

/-- The code bytes of a source (R128): exactly the concatenation of the emitted instructions. -/
def assemble (lines : List (List (List Char))) : Except AsmError (List Byte) := do
  let instrs ← assembleInstrs lines
  .ok (instrs.flatMap encode)

/-- A text cut at every character of a kind. -/
def splitAtChars (isCut : Char → Bool) : List Char → List (List Char)
  | [] => [[]]
  | c :: rest =>
    match splitAtChars isCut rest with
    | [] => [[c]]
    | first :: others => if isCut c then [] :: first :: others else (c :: first) :: others

/-- The tokens of a line (R120): what stands between its blanks. -/
def tokensOf (line : List Char) : List (List Char) :=
  (splitAtChars (fun c => c == ' ' || c == '\t' || c == '\r') line).filter (fun t => !t.isEmpty)

/-- The lines of a source text; the newline after the last line begins no further line. -/
def linesOf (text : List Char) : List (List Char) :=
  let pieces := splitAtChars (fun c => c == '\n') text
  if pieces.getLast? == some [] then pieces.dropLast else pieces

/-- The assembler of R120 to R129 on a source text. -/
def assembleText (text : String) : Except AsmError (List Byte) :=
  assemble ((linesOf text.toList).map tokensOf)

end Sys2Proof.Machine
end

