-- ==== Sys2Proof/Machine/Ports.lean ====
section
/-! DEFINITION. Machine/Ports.lean: what the ports show: the status port (10_state.md R31, R56), the input request (R53), the
line an output value is rendered as (43_io_framebuffer.md R211), the cells of a frame in order (R215), the hold a delay asks
for (R216), and the observable result of a run (70_reset_and_hazards.md R274). None of it feeds back into a step (log 18). -/

namespace Sys2Proof

/-- The 4-bit code of a cause (R30, D20). -/
def Cause.code : Cause → BitVec 4
  | .stackUnderflow => 1
  | .stackOverflow => 2
  | .memoryOutOfBounds => 3
  | .pixelOutOfBounds => 4
  | .invalidRegister => 5
  | .divideByZero => 6
  | .unknownOpcode => 7
  | .controlTransferOutOfBounds => 8
  | .truncatedInstruction => 9

namespace Machine

/-- The `cause` field as its 4 bits: 0 while no fault has occurred (R30). -/
def State.causeCode (s : State) : BitVec 4 := (s.cause.map Cause.code).getD 0

/-- `faulted`, which is `cause != 0` (R31). -/
def State.faulted (s : State) : Bool := s.causeCode != 0

/-- Running: neither halted nor faulted (R31). -/
def State.running (s : State) : Bool := !s.halted && !s.faulted

/-- The status register on the status port (R31): bit 0 `halted`, bit 1 `faulted`, bits 3:2 read as 0, bits 7:4 `cause`. -/
def State.statusPort (s : State) : BitVec 8 :=
  s.causeCode ++ (0 : BitVec 2) ++ BitVec.ofBool s.faulted ++ BitVec.ofBool s.halted

/-- `in_req` while the machine waits (R39, R53, R243): its step is an `in` with no value to come. -/
def State.inReq (s : State) : Bool :=
  match step s with
  | .fault .waitingForInput => true
  | _ => false

/-- One decimal digit. -/
def digitChar (d : Nat) : Char := Char.ofNat (48 + d % 10)

/-- The decimal digits of a number below `10^fuel`, without leading zeros; 0 is one digit. -/
def decimalDigits : Nat → Nat → List Char
  | 0, _ => []
  | fuel + 1, n => if n < 10 then [digitChar n] else decimalDigits fuel (n / 10) ++ [digitChar n]

/-- The line of text the output sink renders for a value (R211, D25): sign, integer part, point, two digits, newline. -/
def outLine (v : Word) : List Char :=
  (if v.toInt < 0 then ['-'] else [])
    ++ decimalDigits 10 (v.toInt.natAbs / 100)
    ++ ['.', digitChar (v.toInt.natAbs % 100 / 10), digitChar (v.toInt.natAbs % 100), '\n']

/-- The text of a run's outputs, in program order (R54, R73). -/
def outputText (events : List Event) : List Char :=
  events.flatMap fun e => match e with
    | .output v => outLine v
    | _ => []

/-- The 4096 cells of a frame as the display receives them: rows 0 to 63, each row from column 0 to 63 (R215, D27). -/
def frameCells (frame : List Host.Cell) : List Byte := (List.range fbCells).map (Memory.read frame)

/-- The milliseconds an event holds the block for, where the spec fixes them: `max(ms, 0)` for a delay (R55, R216, D26). The
hold after a frame, about 18 ms, is not fixed (R279). -/
def Event.holdMs : Event → Nat
  | .delay ms => ms.toInt.toNat
  | _ => 0

/-! ### The observable result of a run (70_reset_and_hazards.md R274) -/

/-- The architectural state: exactly R20's list, without the run's other parameters and the port log. -/
structure ArchState where
  x : Vector Word 4
  pc : Nat
  stack : List Word
  dm : List (Nat × Word)
  fb : List Host.Cell
  halted : Bool
  cause : Option Cause
  code : List Byte
deriving DecidableEq, Repr

/-- The architectural state of a machine (R20). -/
def State.architectural (s : State) : ArchState where
  x := s.x
  pc := s.pc
  stack := s.stack
  dm := s.dm
  fb := s.fb
  halted := s.halted
  cause := s.cause
  code := s.code

/-- The event is an output, a frame or a delay, the port events that R274 lists. -/
def Event.observable : Event → Bool
  | .output _ | .display _ | .delay _ => true
  | .input _ => false

/-- The observable result of a finished run (R274). -/
structure Observation where
  final : ArchState
  status : BitVec 8
  events : List Event
deriving DecidableEq, Repr

/-- What R274 says of a run that ends in `s`: the final architectural state, the status (R31, R56), and the outputs, frames
and delays in order. What the input source still holds and the stack's capacity are not in it; the order of input consumption
among the events (R73) stays in `State.events` (log 10). -/
def observe (s : State) : Observation where
  final := s.architectural
  status := s.statusPort
  events := s.events.filter Event.observable

end Machine

end Sys2Proof
end

