-- ==== Sys2Proof/Safety.lean ====
section
/-! DEFINITION. Safety.lean: the terms claims are made in: the invariant of the machine, the ways a run ends
(70_reset_and_hazards.md R274), what a state keeps of another, and states that a run passes. What the
host observes of a finished run is `observe` in Machine/Ports.lean. -/

namespace Sys2Proof.Machine

/-- A framebuffer in canonical form that holds colour codes 0 to 9 only (R36, R213). -/
def frameOk (fb : List Host.Cell) : Prop := Memory.wf fbCells fb ∧ ∀ c ∈ fb, c.2.toNat ≤ 9

/-- What every state of a run satisfies. -/
structure Inv (s : State) : Prop where
  /-- `depth <= STACK_CAPACITY` (R32). -/
  depth_le : s.stack.length ≤ s.stackCapacity
  /-- Data memory is in canonical form, 1024 words (R35). -/
  data_wf : Memory.wf dmemWords s.dm
  /-- The framebuffer holds colour codes (R36). -/
  frame_ok : frameOk s.fb
  /-- Every frame the display was given held colour codes (R215). -/
  frames_ok : ∀ fb, Event.display fb ∈ s.events → frameOk fb
  /-- `L <= 2^31 - 1` (R9). -/
  code_le : s.codeLength ≤ maxCodeLength
  /-- `pc` is in `[0, L]` (R25). -/
  pc_le : s.pc ≤ s.codeLength
  /-- A halted machine is not faulted (R31, R275). -/
  halted_not_faulted : s.halted = true → s.cause = none
  /-- After a normal halt `pc` is `L` (R274). -/
  halted_at_end : s.halted = true → s.pc = s.codeLength

/-- A normal halt (R274, item 1). -/
def normallyHalted (s : State) : Prop := s.halted = true ∧ s.cause = none

/-- A fault stop (R274, item 2). -/
def faultStopped (s : State) : Prop := s.halted = false ∧ s.cause ≠ none

/-- A stuck run (R274, item 3, R276): the machine waits for input that never comes. -/
def stuck (s : State) : Prop := step s = .fault .waitingForInput

/-- A run passes from one state to another in zero or more steps. -/
inductive Reaches : State → State → Prop where
  | refl (s : State) : Reaches s s
  | step {s t u : State} (first : Sys2Proof.Machine.step s = .next t) (rest : Reaches t u) : Reaches s u

/-- A hang (R274, item 4): the run goes on for ever, from every state that it passes. -/
def hangs (s : State) : Prop := ∀ t, Reaches s t → ∃ u, Sys2Proof.Machine.step t = .next u

/-- One of the three ends of R274 at which a run takes no further step. -/
def ended (s : State) : Prop := normallyHalted s ∨ faultStopped s ∨ stuck s

/-! ### Faults and frames -/

/-- The instruction raises a fault precisely: the next state is the state with `cause` written and nothing else (R231, R232). -/
def Raises (i : Instr) (s : State) (c : Cause) : Prop := exec i s = .next { s with cause := some c }

/-- Every register but one reads as before. -/
def SameRegsBut (q : Fin 4) (s t : State) : Prop := ∀ r, r ≠ q → t.reg r = s.reg r

/-- Every data word but one reads as before. -/
def SameDataBut (j : Nat) (s t : State) : Prop := ∀ i, i ≠ j → t.readData i = s.readData i

/-- Every framebuffer cell but one reads as before. -/
def SameCellsBut (j : Nat) (s t : State) : Prop := ∀ i, i ≠ j → t.readCell i = s.readCell i

/-- An outcome with its next state changed; a stop is left as it is. -/
def mapNext (f : State → State) : Result → Result
  | .next t => .next (f t)
  | .fault r => .fault r
  | .refused r => .refused r

/-- The faults an instruction's own execution may raise: the rows of R230's table that name its opcode. `sqrt` may raise
whatever fault SQRT_NEG answers as well (R165). UnknownOpcode and TruncatedInstruction belong to the fetch. -/
def mayRaise : Instr → List Cause
  | .nop | .end_ | .draw | .delayN _ => []
  | .pushN _ | .in_ => [.stackOverflow]
  | .pushR _ => [.invalidRegister, .stackOverflow]
  | .pushMemK _ => [.memoryOutOfBounds, .stackOverflow]
  | .pushMemR _ | .pushMemRD _ _ => [.invalidRegister, .memoryOutOfBounds, .stackOverflow]
  | .popR _ => [.invalidRegister, .stackUnderflow]
  | .popMemK _ => [.memoryOutOfBounds, .stackUnderflow]
  | .popMemR _ | .popMemRD _ _ => [.invalidRegister, .memoryOutOfBounds, .stackUnderflow]
  | .add | .sub | .mul | .sqrt | .out => [.stackUnderflow]
  | .div => [.stackUnderflow, .divideByZero]
  | .incR _ => [.invalidRegister]
  | .pixN _ => [.pixelOutOfBounds]
  | .pixR _ => [.invalidRegister, .pixelOutOfBounds]
  | .callLabel _ | .callN _ => [.controlTransferOutOfBounds, .stackOverflow]
  | .ret => [.stackUnderflow, .controlTransferOutOfBounds]
  | .jmpLabel _ | .jmpN _ => [.controlTransferOutOfBounds]
  | .jaLabel _ | .jaN _ | .jaeLabel _ | .jaeN _ | .jbLabel _ | .jbN _ | .jbeLabel _ | .jbeN _ | .jeLabel _ | .jeN _
  | .jneLabel _ | .jneN _ => [.stackUnderflow, .controlTransferOutOfBounds]

/-- The instructions that read a register (R23). -/
def readsRegister : Instr → Bool
  | .pushR _ | .pushMemR _ | .pushMemRD _ _ | .popMemR _ | .popMemRD _ _ | .incR _ | .pixR _ => true
  | _ => false

/-- The instructions that write a register (R23). -/
def writesRegister : Instr → Bool
  | .popR _ | .incR _ => true
  | _ => false

/-- The instructions that write data memory (R35, R60). -/
def writesData : Instr → Bool
  | .popMemK _ | .popMemR _ | .popMemRD _ _ => true
  | _ => false

/-- The instructions that write the framebuffer (R36). -/
def writesFrame : Instr → Bool
  | .pixN _ | .pixR _ => true
  | _ => false

/-- The instructions with a port transaction (R71). -/
def usesPort : Instr → Bool
  | .in_ | .out | .draw | .delayN _ => true
  | _ => false

end Sys2Proof.Machine
end

