-- ==== Sys2Proof/WellFormed.lean ====
section
/-! DEFINITION. WellFormed.lean: an instruction none of whose operand values is illegal in itself: the four checks of
30_encoding.md R103 that the instruction's own words and the code length decide. An instruction that fails one still decodes
and executes: its meaning raises the fault R103 names (log 12). -/

namespace Sys2Proof

open Machine

/-- The register word names a register (R94). -/
def regWordOk (w : Word) : Bool := (regIndex w).isSome

/-- The direct memory index is inside data memory (R66, R96). -/
def dataWordOk (w : Word) : Bool := (dataIndex w.toInt).isSome

/-- The literal pixel descriptor is inside the framebuffer (R213). -/
def pixelWordOk (w : Word) : Bool := (pixelOf w.toInt).isSome

/-- The target is an offset of the code (R181). -/
def targetWordOk (codeLength : Nat) (w : Word) : Bool := (codeTarget codeLength w.toInt).isSome

/-- No operand word of the instruction is illegal in itself in code of the given length (R103). -/
def Instr.wellFormed (codeLength : Nat) : Instr → Bool
  | .nop => true
  | .pushN _ => true
  | .popR w1 => regWordOk w1
  | .add => true
  | .sub => true
  | .mul => true
  | .div => true
  | .end_ => true
  | .in_ => true
  | .out => true
  | .callLabel w1 => targetWordOk codeLength w1
  | .pushR w1 => regWordOk w1
  | .callN w1 => targetWordOk codeLength w1
  | .ret => true
  | .sqrt => true
  | .incR w1 => regWordOk w1
  | .pixN w1 => pixelWordOk w1
  | .pixR w1 => regWordOk w1
  | .draw => true
  | .delayN _ => true
  | .jmpLabel w1 => targetWordOk codeLength w1
  | .jmpN w1 => targetWordOk codeLength w1
  | .jaLabel w1 => targetWordOk codeLength w1
  | .jaN w1 => targetWordOk codeLength w1
  | .jaeLabel w1 => targetWordOk codeLength w1
  | .jaeN w1 => targetWordOk codeLength w1
  | .jbLabel w1 => targetWordOk codeLength w1
  | .jbN w1 => targetWordOk codeLength w1
  | .jbeLabel w1 => targetWordOk codeLength w1
  | .jbeN w1 => targetWordOk codeLength w1
  | .jeLabel w1 => targetWordOk codeLength w1
  | .jeN w1 => targetWordOk codeLength w1
  | .jneLabel w1 => targetWordOk codeLength w1
  | .jneN w1 => targetWordOk codeLength w1
  | .pushMemK w1 => dataWordOk w1
  | .pushMemR w1 => regWordOk w1
  | .pushMemRD w1 _ => regWordOk w1
  | .popMemK w1 => dataWordOk w1
  | .popMemR w1 => regWordOk w1
  | .popMemRD w1 _ => regWordOk w1

end Sys2Proof
end

