-- ==== Sys2Proof/Certificates/Slice0/Obligations.lean ====
section
/-! DEFINITION. Certificates/Slice0/Obligations.lean: the statements for the provers. An instruction's statement gives its
encoding, the next state it completes with, and the faults it raises. Where the next state is written as a record update of
`s`, the frame is the record: every register, data word, cell, event and status bit that it does not name is the one of `s`.
Where an instruction writes a register, a data word or a cell, the frame is said through the reads. A docstring that says
"the spec's decision" rests on a sentence the spec marks as its own (spec/92_eei_decisions.md). -/

open Sys2Proof Sys2Proof.Machine

/-! ### Numbers and encodings -/

/-- R11: `wrap32(v)` is the value in the signed 32-bit range that is congruent to `v` modulo `2^32`. -/
def Obligations.Wrap32IsTheSignedResidue : Prop :=
  ∀ v : Int, -2147483648 ≤ (wrap32 v).toInt ∧ (wrap32 v).toInt < 2147483648 ∧ (4294967296 : Int) ∣ (wrap32 v).toInt - v

/-- R61, the spec's decisions D2 and D17: MemRead assembles `n` bytes little-endian, and is defined inside the code only. -/
def Obligations.MemReadIsLittleEndian : Prop :=
  ∀ (code : List Byte) (addr n : Nat),
    (addr + n ≤ code.length →
      memRead code addr n = some (∑ k ∈ Finset.range n, 256 ^ k * (code.getD (addr + k) 0).toNat))
    ∧ (0 < n → code.length < addr + n → memRead code addr n = none)

/-- R62 and R90, the spec's decision D2: the four bytes stored for an operand word, least significant first, read back as
that word, whatever follows them. -/
def Obligations.OperandWordsReadBack : Prop :=
  ∀ (w : Word) (before rest : List Byte),
    wordBytes w = [w.extractLsb' 0 8, w.extractLsb' 8 8, w.extractLsb' 16 8, w.extractLsb' 24 8]
    ∧ operandWord (before ++ wordBytes w ++ rest) before.length = w

/-- The words of a few instructions of every family, written out from the spec's encodings, decode to them (R140, R144, R145,
R148, R161, R165, R166, R182, R186, R190, R212, R215, R216). -/
def Obligations.SampleWordsDecode : Prop :=
  decode [0x01, 0x05, 0x00, 0x00, 0x00] = .instr (.pushN 5) 5
  ∧ decode [0x2B, 0x01, 0x00, 0x00, 0x00, 0x03, 0x00, 0x00, 0x00] = .instr (.pushMemRD 1 3) 9
  ∧ decode [0x02, 0x00, 0x00, 0x00, 0x00] = .instr (.popR 0) 5
  ∧ decode [0x36, 0x03, 0x00, 0x00, 0x00, 0xFF, 0xFF, 0xFF, 0xFF] = .instr (.popMemRD 3 (-1)) 9
  ∧ decode [0x03] = .instr .add 1
  ∧ decode [0x0E] = .instr .sqrt 1
  ∧ decode [0x0F, 0x02, 0x00, 0x00, 0x00] = .instr (.incR 2) 5
  ∧ decode [0x00] = .instr .nop 1
  ∧ decode [0x0D] = .instr .ret 1
  ∧ decode [0x16, 0x00, 0x00, 0x00, 0x00] = .instr (.jaLabel 0) 5
  ∧ decode [0x10, 0x6D, 0x9F, 0x09, 0x00] = .instr (.pixN 630637) 5
  ∧ decode [0x12] = .instr .draw 1
  ∧ decode [0x13, 0x64, 0x00, 0x00, 0x00] = .instr (.delayN 100) 5

/-- Decode and encode agree, for every instruction with every operand word, whatever bytes follow. -/
def Obligations.DecodeEncode : Prop :=
  ∀ (i : Instr) (rest : List Byte), decode (encode i ++ rest) = .instr i (encode i).length

/-- Every bit that the decoder reads it keeps: bytes that decode to an instruction begin with the encoding of it. -/
def Obligations.EncodeDecode : Prop :=
  ∀ (bytes : List Byte) (i : Instr) (len : Nat), decode bytes = .instr i len → bytes.take len = encode i ∧ len = i.length

/-! ### The machine: reset, fetch, stops -/

/-- Reset leaves the values of R20's table. The empty stack and the zero `halted` and `cause` are the spec's decision D30; the
run's parameters are arguments. -/
def Obligations.ResetLeavesTheResetValues : Prop :=
  ∀ (code : List Byte) (input : InputSource) (capacity : Nat),
    let s := State.boot code input capacity
    (∀ r, s.reg r = 0) ∧ s.pc = 0 ∧ s.stack = [] ∧ (∀ i, s.readData i = 0) ∧ (∀ i, s.readCell i = 0)
      ∧ s.halted = false ∧ s.causeCode = 0 ∧ s.running = true ∧ s.statusPort = 0 ∧ s.code = code ∧ s.events = []

/-- The state after reset is `State.boot` with nothing loaded, so the machine halts at its first step, as R113 says of
`L = 0`. That no code is loaded is the model's choice (log 1). -/
def Obligations.ResetHaltsAtItsFirstStep : Prop :=
  step State.reset = .next { State.reset with halted := true }

/-- R30 and R31, the spec's decision D20: the layout of the status register, bit by bit, and the code of each cause. -/
def Obligations.StatusPortLayout : Prop :=
  ∀ s : State,
    s.statusPort.getLsbD 0 = s.halted
    ∧ s.statusPort.getLsbD 1 = decide (s.cause ≠ none)
    ∧ s.statusPort.getLsbD 2 = false ∧ s.statusPort.getLsbD 3 = false
    ∧ ∀ p ∈ [(none, 0#4), (some Cause.stackUnderflow, 1#4), (some .stackOverflow, 2#4), (some .memoryOutOfBounds, 3#4),
        (some .pixelOutOfBounds, 4#4), (some .invalidRegister, 5#4), (some .divideByZero, 6#4), (some .unknownOpcode, 7#4),
        (some .controlTransferOutOfBounds, 8#4), (some .truncatedInstruction, 9#4)],
      State.statusPort { s with cause := p.1 } >>> 4 = p.2.setWidth 8

/-- R110: a running machine whose bytes at `pc` decode to an instruction runs exactly that instruction, and the whole of it
lies in the code. `exec` itself moves `pc` (R112), so the step adds nothing. -/
def Obligations.StepRunsTheDecodedInstruction : Prop :=
  ∀ (s : State) (i : Instr) (len : Nat),
    s.halted = false → s.cause = none → decode (s.code.drop s.pc) = .instr i len →
      step s = exec i s ∧ s.pc + len ≤ s.codeLength ∧ len = i.length

/-- R102: fetching any of the 216 unassigned opcodes raises UnknownOpcode, and every other opcode byte is assigned. -/
def Obligations.UnassignedOpcodesRaiseUnknownOpcode : Prop :=
  (∀ op : Byte, decodeOpcode op.toNat = none ↔
      (34 ≤ op.toNat ∧ op.toNat ≤ 40) ∨ (44 ≤ op.toNat ∧ op.toNat ≤ 51) ∨ 55 ≤ op.toNat)
  ∧ ((List.range 256).filter (fun op => (decodeOpcode op).isNone)).length = 216
  ∧ ∀ (s : State) (op : Byte) (rest : List Byte),
      s.halted = false → s.cause = none → s.code.drop s.pc = op :: rest →
        (34 ≤ op.toNat ∧ op.toNat ≤ 40) ∨ (44 ≤ op.toNat ∧ op.toNat ≤ 51) ∨ 55 ≤ op.toNat →
          step s = .next { s with cause := some .unknownOpcode }

/-- R111, the spec's decision D17: an instruction that ends past the code raises TruncatedInstruction. -/
def Obligations.TruncatedInstructionsRaise : Prop :=
  ∀ (s : State) (op : Byte) (rest : List Byte) (row : OpcodeRow),
    s.halted = false → s.cause = none → s.code.drop s.pc = op :: rest → decodeOpcode op.toNat = some row →
      s.pc + row.mode.length > s.codeLength → step s = .next { s with cause := some .truncatedInstruction }

/-- R113, the spec's decision D42: with `pc >= L` a running machine halts without a fault and keeps its `pc`. -/
def Obligations.EndOfCodeHalts : Prop :=
  ∀ s : State, s.halted = false → s.cause = none → s.codeLength ≤ s.pc → step s = .next { s with halted := true }

/-- R275, the spec's decision D38: a halted or faulted machine takes no step, and says which it is. -/
def Obligations.AStoppedMachineTakesNoStep : Prop :=
  ∀ s : State,
    (s.halted = true → step s = .fault .halted)
    ∧ (∀ c, s.halted = false → s.cause = some c → step s = .fault (.faulted c))

/-- R232, the spec's decision D18: a step that changes `cause` changes nothing else, and it comes from a running machine. -/
def Obligations.FaultsArePrecise : Prop :=
  ∀ s t : State, step s = .next t → t.cause ≠ s.cause →
    s.halted = false ∧ s.cause = none ∧ ∃ c, t = { s with cause := some c }

/-- R230, the spec's decisions D17 and D20: the faults an instruction may raise are those whose row names its opcode. `sqrt`,
which may raise what SQRT_NEG answers as well, is left to its own statement. -/
def Obligations.FaultsAreThoseOfTheTable : Prop :=
  ∀ (i : Instr) (s t : State) (c : Cause),
    i ≠ .sqrt → s.cause = none → exec i s = .next t → t.cause = some c → c ∈ mayRaise i

/-! ### Stack and memory transfers -/

/-- R140: `push n`. That the scaled value wraps is the spec's decision D3. -/
def Obligations.PushNumber : Prop :=
  ∀ (w1 : Word) (s : State),
    encode (.pushN w1) = 0x01#8 :: wordBytes w1
    ∧ (s.stack.length < s.stackCapacity →
        exec (.pushN w1) s = .next { s with pc := s.pc + 5, stack := wrap32 (100 * w1.toInt) :: s.stack })
    ∧ (s.stack.length = s.stackCapacity → Raises (.pushN w1) s .stackOverflow)

/-- R141: `push r`. -/
def Obligations.PushRegister : Prop :=
  ∀ (w1 : Word) (s : State),
    encode (.pushR w1) = 0x0B#8 :: wordBytes w1
    ∧ (∀ r : Fin 4, w1.toInt = r.val → s.stack.length < s.stackCapacity →
        exec (.pushR w1) s = .next { s with pc := s.pc + 5, stack := s.reg r :: s.stack })
    ∧ (w1.toInt < 0 ∨ 3 < w1.toInt → Raises (.pushR w1) s .invalidRegister)
    ∧ (∀ r : Fin 4, w1.toInt = r.val → s.stack.length = s.stackCapacity → Raises (.pushR w1) s .stackOverflow)

/-- R142: `push [k]`. That a negative index faults is the spec's decision D12. -/
def Obligations.PushDirect : Prop :=
  ∀ (w1 : Word) (s : State),
    encode (.pushMemK w1) = 0x29#8 :: wordBytes w1
    ∧ (∀ k : Nat, w1.toInt = k → k < 1024 → s.stack.length < s.stackCapacity →
        exec (.pushMemK w1) s = .next { s with pc := s.pc + 5, stack := s.readData k :: s.stack })
    ∧ (w1.toInt < 0 ∨ 1024 ≤ w1.toInt → Raises (.pushMemK w1) s .memoryOutOfBounds)
    ∧ (0 ≤ w1.toInt → w1.toInt < 1024 → s.stack.length = s.stackCapacity → Raises (.pushMemK w1) s .stackOverflow)

/-- R143: `push [r]`. That the division truncates is the spec's decision D4. -/
def Obligations.PushIndirect : Prop :=
  ∀ (w1 : Word) (s : State),
    encode (.pushMemR w1) = 0x2A#8 :: wordBytes w1
    ∧ (w1.toInt < 0 ∨ 3 < w1.toInt → Raises (.pushMemR w1) s .invalidRegister)
    ∧ ∀ r : Fin 4, w1.toInt = r.val →
        (∀ k : Nat, Int.tdiv (s.reg r).toInt 100 = k → k < 1024 → s.stack.length < s.stackCapacity →
          exec (.pushMemR w1) s = .next { s with pc := s.pc + 5, stack := s.readData k :: s.stack })
        ∧ (Int.tdiv (s.reg r).toInt 100 < 0 ∨ 1024 ≤ Int.tdiv (s.reg r).toInt 100 →
          Raises (.pushMemR w1) s .memoryOutOfBounds)
        ∧ (0 ≤ Int.tdiv (s.reg r).toInt 100 → Int.tdiv (s.reg r).toInt 100 < 1024 →
          s.stack.length = s.stackCapacity → Raises (.pushMemR w1) s .stackOverflow)

/-- R144: `push [r+d]`, the index an exact sum. -/
def Obligations.PushDisplaced : Prop :=
  ∀ (w1 w2 : Word) (s : State),
    encode (.pushMemRD w1 w2) = 0x2B#8 :: (wordBytes w1 ++ wordBytes w2)
    ∧ (w1.toInt < 0 ∨ 3 < w1.toInt → Raises (.pushMemRD w1 w2) s .invalidRegister)
    ∧ ∀ r : Fin 4, w1.toInt = r.val →
        (∀ k : Nat, Int.tdiv (s.reg r).toInt 100 + w2.toInt = k → k < 1024 → s.stack.length < s.stackCapacity →
          exec (.pushMemRD w1 w2) s = .next { s with pc := s.pc + 9, stack := s.readData k :: s.stack })
        ∧ (Int.tdiv (s.reg r).toInt 100 + w2.toInt < 0 ∨ 1024 ≤ Int.tdiv (s.reg r).toInt 100 + w2.toInt →
          Raises (.pushMemRD w1 w2) s .memoryOutOfBounds)
        ∧ (0 ≤ Int.tdiv (s.reg r).toInt 100 + w2.toInt → Int.tdiv (s.reg r).toInt 100 + w2.toInt < 1024 →
          s.stack.length = s.stackCapacity → Raises (.pushMemRD w1 w2) s .stackOverflow)

/-- R145: `pop r`: the register takes the top, unscaled; the other registers, data memory, framebuffer, status and ports are
as before. -/
def Obligations.PopRegister : Prop :=
  ∀ (w1 : Word) (s : State),
    encode (.popR w1) = 0x02#8 :: wordBytes w1
    ∧ (∀ (r : Fin 4) (v : Word) (rest : List Word), w1.toInt = r.val → s.stack = v :: rest →
        ∃ t, exec (.popR w1) s = .next t ∧ t.reg r = v ∧ SameRegsBut r s t
          ∧ t = { s with pc := s.pc + 5, stack := rest, x := t.x })
    ∧ (w1.toInt < 0 ∨ 3 < w1.toInt → Raises (.popR w1) s .invalidRegister)
    ∧ (∀ r : Fin 4, w1.toInt = r.val → s.stack = [] → Raises (.popR w1) s .stackUnderflow)

/-- R146: `pop [k]`: data word `k` takes the top and every other data word reads as before. That the bounds check comes before
the stack check is the spec's decision D19; the canonical form of data memory is a premise (the invariant of the model). -/
def Obligations.PopDirect : Prop :=
  ∀ (w1 : Word) (s : State), Memory.wf 1024 s.dm →
    encode (.popMemK w1) = 0x34#8 :: wordBytes w1
    ∧ (∀ (k : Nat) (v : Word) (rest : List Word), w1.toInt = k → k < 1024 → s.stack = v :: rest →
        ∃ t, exec (.popMemK w1) s = .next t ∧ t.readData k = v ∧ SameDataBut k s t
          ∧ t = { s with pc := s.pc + 5, stack := rest, dm := t.dm })
    ∧ (w1.toInt < 0 ∨ 1024 ≤ w1.toInt → Raises (.popMemK w1) s .memoryOutOfBounds)
    ∧ (0 ≤ w1.toInt → w1.toInt < 1024 → s.stack = [] → Raises (.popMemK w1) s .stackUnderflow)

/-- R147: `pop [r]`: the data word at the register divided by 100 takes the top and every other data word reads as before; the
index is computed from the state before the pop. -/
def Obligations.PopIndirect : Prop :=
  ∀ (w1 : Word) (s : State), Memory.wf 1024 s.dm →
    encode (.popMemR w1) = 0x35#8 :: wordBytes w1
    ∧ (w1.toInt < 0 ∨ 3 < w1.toInt → Raises (.popMemR w1) s .invalidRegister)
    ∧ ∀ r : Fin 4, w1.toInt = r.val →
        (∀ (k : Nat) (v : Word) (rest : List Word), Int.tdiv (s.reg r).toInt 100 = k → k < 1024 → s.stack = v :: rest →
          ∃ t, exec (.popMemR w1) s = .next t ∧ t.readData k = v ∧ SameDataBut k s t
            ∧ t = { s with pc := s.pc + 5, stack := rest, dm := t.dm })
        ∧ (Int.tdiv (s.reg r).toInt 100 < 0 ∨ 1024 ≤ Int.tdiv (s.reg r).toInt 100 →
          Raises (.popMemR w1) s .memoryOutOfBounds)
        ∧ (0 ≤ Int.tdiv (s.reg r).toInt 100 → Int.tdiv (s.reg r).toInt 100 < 1024 → s.stack = [] →
          Raises (.popMemR w1) s .stackUnderflow)

/-- R148: `pop [r+d]`: the data word at the register divided by 100 plus the displacement takes the top and every other data
word reads as before. -/
def Obligations.PopDisplaced : Prop :=
  ∀ (w1 w2 : Word) (s : State), Memory.wf 1024 s.dm →
    encode (.popMemRD w1 w2) = 0x36#8 :: (wordBytes w1 ++ wordBytes w2)
    ∧ (w1.toInt < 0 ∨ 3 < w1.toInt → Raises (.popMemRD w1 w2) s .invalidRegister)
    ∧ ∀ r : Fin 4, w1.toInt = r.val →
        (∀ (k : Nat) (v : Word) (rest : List Word), Int.tdiv (s.reg r).toInt 100 + w2.toInt = k → k < 1024 →
          s.stack = v :: rest →
          ∃ t, exec (.popMemRD w1 w2) s = .next t ∧ t.readData k = v ∧ SameDataBut k s t
            ∧ t = { s with pc := s.pc + 9, stack := rest, dm := t.dm })
        ∧ (Int.tdiv (s.reg r).toInt 100 + w2.toInt < 0 ∨ 1024 ≤ Int.tdiv (s.reg r).toInt 100 + w2.toInt →
          Raises (.popMemRD w1 w2) s .memoryOutOfBounds)
        ∧ (0 ≤ Int.tdiv (s.reg r).toInt 100 + w2.toInt → Int.tdiv (s.reg r).toInt 100 + w2.toInt < 1024 →
          s.stack = [] → Raises (.popMemRD w1 w2) s .stackUnderflow)

/-! ### Arithmetic -/

/-- R161: `add`. -/
def Obligations.AddReplacesTheTopTwo : Prop :=
  ∀ s : State,
    encode .add = [0x03#8]
    ∧ (∀ (top second : Word) (rest : List Word), s.stack = top :: second :: rest →
        exec .add s = .next { s with pc := s.pc + 1, stack := wrap32 (second.toInt + top.toInt) :: rest })
    ∧ (s.stack.length < 2 → Raises .add s .stackUnderflow)

/-- R162 and R163: `sub` and `mul`. The order of `sub` and the wrap of the product of `mul` are the spec's decisions D5 and
D35. -/
def Obligations.SubAndMulReplaceTheTopTwo : Prop :=
  ∀ s : State,
    encode .sub = [0x04#8] ∧ encode .mul = [0x05#8]
    ∧ (∀ (top second : Word) (rest : List Word), s.stack = top :: second :: rest →
        exec .sub s = .next { s with pc := s.pc + 1, stack := wrap32 (second.toInt - top.toInt) :: rest })
    ∧ (∀ (top second : Word) (rest : List Word), s.stack = top :: second :: rest →
        exec .mul s = .next { s with
          pc := s.pc + 1
          stack := wrap32 (Int.tdiv (wrap32 (second.toInt * top.toInt)).toInt 100) :: rest })
    ∧ (s.stack.length < 2 → Raises .sub s .stackUnderflow ∧ Raises .mul s .stackUnderflow)

/-- R164: `div`, second by top. The order of the operands, the wraps and the truncation are the spec's decisions D6, D3 and
D4. -/
def Obligations.DivReplacesTheTopTwo : Prop :=
  ∀ s : State,
    encode .div = [0x06#8]
    ∧ (∀ (top second : Word) (rest : List Word), s.stack = top :: second :: rest → top.toInt ≠ 0 →
        exec .div s = .next { s with
          pc := s.pc + 1
          stack := wrap32 (Int.tdiv (wrap32 (100 * second.toInt)).toInt top.toInt) :: rest })
    ∧ (∀ (top second : Word) (rest : List Word), s.stack = top :: second :: rest → top.toInt = 0 →
        Raises .div s .divideByZero)
    ∧ (s.stack.length < 2 → Raises .div s .stackUnderflow)

/-- R165: `sqrt` of a value that is not negative: the integer nearest to `sqrt(100 v)`, found from the largest `q` with
`q*q <= 100 v`. That the division is exact is the spec's decision D15. -/
def Obligations.SqrtOfANonNegativeValue : Prop :=
  ∀ s : State,
    encode .sqrt = [0x0E#8]
    ∧ (∀ (v : Word) (rest : List Word), s.stack = v :: rest → 0 ≤ v.toInt →
        ∃ q : Nat, (q * q : Int) ≤ 100 * v.toInt ∧ 100 * v.toInt < (q + 1) * (q + 1)
          ∧ exec .sqrt s = .next { s with
              pc := s.pc + 1
              stack := wrap32 (if 100 * v.toInt - q * q > q then q + 1 else q) :: rest })
    ∧ (s.stack = [] → Raises .sqrt s .stackUnderflow)

/-- R165 for a negative value, the spec's decision D16: whatever SQRT_NEG answers, a value replaces the top and a fault code is
a precise fault that leaves the operand on the stack. SQRT_NEG is the model's free value (log 4). -/
def Obligations.SqrtOfANegativeValueFollowsSqrtNeg : Prop :=
  ∀ (s : State) (v : Word) (rest : List Word), s.stack = v :: rest → v.toInt < 0 →
    exec .sqrt s = match Config.sqrtNeg v with
      | .value r => .next { s with pc := s.pc + 1, stack := r :: rest }
      | .fault c => .next { s with cause := some c }

/-- R166: `inc r`: the register gains 100, wrapped; the other registers and everything else are as before. -/
def Obligations.IncRegister : Prop :=
  ∀ (w1 : Word) (s : State),
    encode (.incR w1) = 0x0F#8 :: wordBytes w1
    ∧ (∀ r : Fin 4, w1.toInt = r.val →
        ∃ t, exec (.incR w1) s = .next t ∧ t.reg r = wrap32 ((s.reg r).toInt + 100) ∧ SameRegsBut r s t
          ∧ t = { s with pc := s.pc + 5, x := t.x })
    ∧ (w1.toInt < 0 ∨ 3 < w1.toInt → Raises (.incR w1) s .invalidRegister)

/-! ### Control transfer -/

/-- R182: `nop` changes `pc` only. -/
def Obligations.NopAdvances : Prop :=
  ∀ s : State, encode .nop = [0x00#8] ∧ exec .nop s = .next { s with pc := s.pc + 1 }

/-- R183, the spec's decision D21: `end` halts with `pc = L` and leaves the rest as it is. -/
def Obligations.EndHalts : Prop :=
  ∀ s : State, encode .end_ = [0x07#8] ∧ exec .end_ s = .next { s with pc := s.codeLength, halted := true }

/-- R184 and R185: both forms of `call` push the link `pc + 1` and go to the target; the target check comes first. The link's
value and its place are the spec's decisions D7 and D8. -/
def Obligations.CallPushesItsLink : Prop :=
  ∀ (w1 : Word) (s : State),
    encode (.callLabel w1) = 0x0A#8 :: wordBytes w1 ∧ encode (.callN w1) = 0x0C#8 :: wordBytes w1
    ∧ (∀ tgt : Nat, w1.toInt = tgt → tgt < s.codeLength → s.stack.length < s.stackCapacity →
        exec (.callLabel w1) s = .next { s with pc := tgt, stack := wrap32 (s.pc + 1) :: s.stack }
        ∧ exec (.callN w1) s = .next { s with pc := tgt, stack := wrap32 (s.pc + 1) :: s.stack })
    ∧ (w1.toInt < 0 ∨ (s.codeLength : Int) ≤ w1.toInt →
        Raises (.callLabel w1) s .controlTransferOutOfBounds ∧ Raises (.callN w1) s .controlTransferOutOfBounds)
    ∧ (0 ≤ w1.toInt → w1.toInt < s.codeLength → s.stack.length = s.stackCapacity →
        Raises (.callLabel w1) s .stackOverflow ∧ Raises (.callN w1) s .stackOverflow)

/-- R186: `ret` pops the link and goes to the link plus 4, wrapped; it pops nothing where it faults. -/
def Obligations.RetGoesToLinkPlusFour : Prop :=
  ∀ s : State,
    encode .ret = [0x0D#8]
    ∧ (∀ (link : Word) (rest : List Word), s.stack = link :: rest →
        (∀ tgt : Nat, (wrap32 (link.toInt + 4)).toInt = tgt → tgt < s.codeLength →
          exec .ret s = .next { s with pc := tgt, stack := rest })
        ∧ ((wrap32 (link.toInt + 4)).toInt < 0 ∨ (s.codeLength : Int) ≤ (wrap32 (link.toInt + 4)).toInt →
          Raises .ret s .controlTransferOutOfBounds))
    ∧ (s.stack = [] → Raises .ret s .stackUnderflow)

/-- R187 and R188: both forms of `jmp`. -/
def Obligations.JmpGoesToItsTarget : Prop :=
  ∀ (w1 : Word) (s : State),
    encode (.jmpLabel w1) = 0x14#8 :: wordBytes w1 ∧ encode (.jmpN w1) = 0x15#8 :: wordBytes w1
    ∧ (∀ tgt : Nat, w1.toInt = tgt → tgt < s.codeLength →
        exec (.jmpLabel w1) s = .next { s with pc := tgt } ∧ exec (.jmpN w1) s = .next { s with pc := tgt })
    ∧ (w1.toInt < 0 ∨ (s.codeLength : Int) ≤ w1.toInt →
        Raises (.jmpLabel w1) s .controlTransferOutOfBounds ∧ Raises (.jmpN w1) s .controlTransferOutOfBounds)

/-- The twelve conditional jumps with their opcode and their comparison of top and second (R190 to R201). -/
def Sys2Proof.Machine.conditionalForms (w1 : Word) : List (Byte × Instr × (Int → Int → Bool)) := [
  (0x16, .jaLabel w1, fun top second => decide (top > second)),
  (0x17, .jaN w1, fun top second => decide (top > second)),
  (0x18, .jaeLabel w1, fun top second => decide (top ≥ second)),
  (0x19, .jaeN w1, fun top second => decide (top ≥ second)),
  (0x1A, .jbLabel w1, fun top second => decide (top < second)),
  (0x1B, .jbN w1, fun top second => decide (top < second)),
  (0x1C, .jbeLabel w1, fun top second => decide (top ≤ second)),
  (0x1D, .jbeN w1, fun top second => decide (top ≤ second)),
  (0x1E, .jeLabel w1, fun top second => decide (top = second)),
  (0x1F, .jeN w1, fun top second => decide (top = second)),
  (0x20, .jneLabel w1, fun top second => decide (top ≠ second)),
  (0x21, .jneN w1, fun top second => decide (top ≠ second))]

/-- R189 to R201: each of the twelve conditional jumps (ja, jae, jb, jbe, je, jne, label and number form) goes to its target
where `top OP second` holds and falls through where it does not, popping nothing; one that is not taken does not look at its
target. The signed comparison, the underflow, the target check and the opcodes of four of the six are the spec's decisions D43,
D11, D22 and D9. -/
def Obligations.ConditionalJumps : Prop :=
  ∀ (w1 : Word) (s : State), ∀ f ∈ conditionalForms w1,
    encode f.2.1 = f.1 :: wordBytes w1
    ∧ (∀ (top second : Word) (rest : List Word), s.stack = top :: second :: rest →
        (f.2.2 top.toInt second.toInt = true →
          (∀ tgt : Nat, w1.toInt = tgt → tgt < s.codeLength → exec f.2.1 s = .next { s with pc := tgt })
          ∧ (w1.toInt < 0 ∨ (s.codeLength : Int) ≤ w1.toInt → Raises f.2.1 s .controlTransferOutOfBounds))
        ∧ (f.2.2 top.toInt second.toInt = false → exec f.2.1 s = .next { s with pc := s.pc + 5 }))
    ∧ (s.stack.length < 2 → Raises f.2.1 s .stackUnderflow)

/-- R202 and C1, the spec's decision D7: after a `call`, a `ret` that finds the link on top, with nothing else asked of the
registers, memory or ports, goes to the byte after the call's operand and leaves the stack as it was before the call. -/
def Obligations.RetReturnsBehindTheCall : Prop :=
  ∀ (w1 : Word) (s t u : State), s.codeLength ≤ maxCodeLength → s.pc + 5 < s.codeLength →
    exec (.callN w1) s = .next t → t.cause = s.cause → s.cause = none → u.stack = t.stack → u.code = t.code →
      exec .ret u = .next { u with pc := s.pc + 5, stack := s.stack }

/-! ### Input, output, framebuffer, delay -/

/-- R210, the spec's decision D24: `in` consumes exactly one value and pushes it scaled; a full stack faults before any value
is consumed; with no value to come the machine waits, which is no next state. -/
def Obligations.InReadsOneValue : Prop :=
  ∀ s : State,
    encode .in_ = [0x08#8]
    ∧ (∀ (n : Word) (later : List Word) (beyond : Option Nat),
        s.stack.length < s.stackCapacity → s.input = ⟨n :: later, beyond⟩ →
        exec .in_ s = .next { s with
          pc := s.pc + 1
          stack := wrap32 (100 * n.toInt) :: s.stack
          input := ⟨later, beyond⟩
          events := s.events ++ [.input n] })
    ∧ (∀ k : Nat, s.stack.length < s.stackCapacity → s.input = ⟨[], some k⟩ →
        exec .in_ s = .next { s with
          pc := s.pc + 1
          stack := wrap32 (100 * (Config.inputStream k).toInt) :: s.stack
          input := ⟨[], some (k + 1)⟩
          events := s.events ++ [.input (Config.inputStream k)] })
    ∧ (s.stack.length = s.stackCapacity → Raises .in_ s .stackOverflow)
    ∧ (s.stack.length < s.stackCapacity → s.input = ⟨[], none⟩ → exec .in_ s = .fault .waitingForInput)

/-- R9, R53 and R276: a run on an input stream that does not end never gets stuck, whatever its values are (log 3). -/
def Obligations.AnEndlessInputNeverSticks : Prop :=
  ∀ s t : State, s.input.beyond ≠ none → Reaches s t → t.input.beyond ≠ none ∧ ¬ stuck t

/-- R211: `out` emits the top and leaves it. The underflow of a peek is the spec's decision D11. -/
def Obligations.OutEmitsTheTop : Prop :=
  ∀ s : State,
    encode .out = [0x09#8]
    ∧ (∀ (v : Word) (rest : List Word), s.stack = v :: rest →
        exec .out s = .next { s with pc := s.pc + 1, events := s.events ++ [.output v] })
    ∧ (s.stack = [] → Raises .out s .stackUnderflow)

/-- R212, R213 and R214: both forms of `pix` write the colour `d mod 10` into the cell in column `d / 10000` and row
`(d / 10) mod 1000` and leave every other cell as it was, or fault. The descriptor is the operand word or the register divided
by 100. That a negative descriptor faults and that the division truncates are the spec's decisions D14 and D4; the canonical
form of the framebuffer is a premise (the invariant of the model). -/
def Obligations.PixWritesOneCell : Prop :=
  ∀ (w1 : Word) (s : State), Memory.wf 4096 s.fb →
    encode (.pixN w1) = 0x10#8 :: wordBytes w1 ∧ encode (.pixR w1) = 0x11#8 :: wordBytes w1
    ∧ (w1.toInt < 0 ∨ 3 < w1.toInt → Raises (.pixR w1) s .invalidRegister)
    ∧ ∀ (i : Instr) (d : Int),
        (i = .pixN w1 ∧ d = w1.toInt)
          ∨ (i = .pixR w1 ∧ ∃ r : Fin 4, w1.toInt = r.val ∧ d = Int.tdiv (s.reg r).toInt 100) →
        (∀ px py : Nat, 0 ≤ d → d / 10000 = px → d / 10 % 1000 = py → px < 64 → py < 64 →
          ∃ t, exec i s = .next t ∧ ((t.readCell (64 * py + px)).toNat : Int) = d % 10 ∧ SameCellsBut (64 * py + px) s t
            ∧ t = { s with pc := s.pc + 5, fb := t.fb })
        ∧ (d < 0 ∨ 64 ≤ d / 10000 ∨ 64 ≤ d / 10 % 1000 → Raises i s .pixelOutOfBounds)

/-- R215: `draw` emits the framebuffer as it stands. The order of the 4096 cells, row by row, is the spec's decision D27. -/
def Obligations.DrawEmitsTheFrame : Prop :=
  ∀ s : State,
    encode .draw = [0x12#8]
    ∧ exec .draw s = .next { s with pc := s.pc + 1, events := s.events ++ [.display s.fb] }
    ∧ (frameCells s.fb).length = 4096
    ∧ ∀ x y : Nat, x < 64 → y < 64 → (frameCells s.fb)[64 * y + x]? = some (s.readCell (64 * y + x))

/-- R216: `delay n` is a port event with its operand. That nothing is held for zero or less is the spec's decision D26. -/
def Obligations.DelayEmitsItsOperand : Prop :=
  ∀ (w1 : Word) (s : State),
    encode (.delayN w1) = 0x13#8 :: wordBytes w1
    ∧ exec (.delayN w1) s = .next { s with pc := s.pc + 5, events := s.events ++ [.delay w1] }
    ∧ ((Event.delay w1).holdMs : Int) = max w1.toInt 0

/-- R211, the spec's decision D25: the line of an output value is a sign where it is negative, the integer part in decimal
without leading zeros, a point, two digits and a newline, and its digits give back the value exactly. -/
def Obligations.OutLineShowsTheValue : Prop :=
  ∀ v : Word, ∃ (whole : List Char) (d1 d0 : Char) (n f1 f0 : Nat),
    outLine v = (if v.toInt < 0 then ['-'] else []) ++ whole ++ ['.', d1, d0, '\n']
    ∧ decimalValue whole = some n ∧ (1 < whole.length → whole.head? ≠ some '0')
    ∧ decimalValue [d1] = some f1 ∧ decimalValue [d0] = some f0
    ∧ 100 * n + 10 * f1 + f0 = v.toInt.natAbs

/-! ### Claims over all instructions -/

/-- Every step keeps the invariant of the machine, from every state that has it. -/
def Obligations.EveryStepKeepsTheInvariant : Prop :=
  ∀ s t : State, Inv s → step s = .next t → Inv t

/-- The state after reset has the invariant, whatever code within the spec's bound is loaded and whatever the parameters. -/
def Obligations.ResetHasTheInvariant : Prop :=
  ∀ (code : List Byte) (input : InputSource) (capacity : Nat), code.length ≤ maxCodeLength →
    Inv (State.boot code input capacity)

/-- R274: from a state with the invariant a run hangs or reaches an end, and never both; the end is one state, it is exactly one
of a normal halt, a fault stop and a stuck run, and a normal halt has `pc = L`. -/
def Obligations.ARunEndsInExactlyOneOfFourWays : Prop :=
  ∀ s : State, Inv s →
    (hangs s ∨ ∃ t, Reaches s t ∧ ended t)
    ∧ (hangs s → ∀ t, Reaches s t → ¬ ended t)
    ∧ (∀ t u, Reaches s t → Reaches s u → ended t → ended u → t = u)
    ∧ ∀ t, Reaches s t →
        (normallyHalted t → t.pc = t.codeLength ∧ ¬ faultStopped t ∧ ¬ stuck t)
        ∧ (faultStopped t → ¬ normallyHalted t ∧ ¬ stuck t)
        ∧ (stuck t → ¬ normallyHalted t ∧ ¬ faultStopped t)

/-- R274: the observable result is R20's list, the status and the outputs, frames and delays in order; what the input source
still holds and the stack's capacity are not in it. That input consumption is no event of it is the model's reading (log 10). -/
def Obligations.TheObservationIsStateStatusAndEvents : Prop :=
  (∀ s : State,
    let o := observe s
    (o.final.x = s.x ∧ o.final.pc = s.pc ∧ o.final.stack = s.stack ∧ o.final.dm = s.dm ∧ o.final.fb = s.fb
      ∧ o.final.halted = s.halted ∧ o.final.cause = s.cause ∧ o.final.code = s.code)
    ∧ o.status = s.statusPort ∧ o.events.Sublist s.events
    ∧ (∀ n, .input n ∉ o.events) ∧ ∀ e, (∀ n, e ≠ .input n) → o.events.count e = s.events.count e)
  ∧ ∀ (s : State) (later : InputSource) (capacity : Nat),
      observe { s with input := later, stackCapacity := capacity } = observe s

/-- R63: code memory is read-only while the machine runs; nor does a step change the stack's capacity. -/
def Obligations.CodeIsReadOnly : Prop :=
  ∀ s t : State, step s = .next t → t.code = s.code ∧ t.stackCapacity = s.stackCapacity

/-- R23: only `pop r` and `inc r` write a register; and an instruction that is not in R23's list of readers behaves the same
whatever the registers hold: two runs that differ in the registers only give results that differ in the registers only. -/
def Obligations.OnlyTheNamedInstructionsTouchRegisters : Prop :=
  (∀ (i : Instr) (s t : State), writesRegister i = false → exec i s = .next t → t.x = s.x)
  ∧ ∀ (i : Instr) (s : State) (y z : Vector Word 4), readsRegister i = false →
      mapNext (fun t => { t with x := z }) (exec i { s with x := y }) = mapNext (fun t => { t with x := z }) (exec i s)

/-- What else an instruction can write (R29, R35, R36, R60, R71): data memory only by `pop` to memory, the framebuffer only by
`pix`, `halted` only by `end`, the ports only by `in`, `out`, `draw` and `delay`, and the input only by `in`. -/
def Obligations.OnlyTheNamedInstructionsWrite : Prop :=
  ∀ (i : Instr) (s t : State), exec i s = .next t →
    (writesData i = false → t.dm = s.dm) ∧ (writesFrame i = false → t.fb = s.fb)
    ∧ (i ≠ .end_ → t.halted = s.halted) ∧ (usesPort i = false → t.events = s.events)
    ∧ (i ≠ .in_ → t.input = s.input)

/-- R60: no instruction reaches data memory through the framebuffer or the ports, and only `push` from memory reads it: an
instruction that neither reads nor writes data memory behaves the same whatever it holds. -/
def Obligations.OnlyMemoryFormsSeeDataMemory : Prop :=
  ∀ (i : Instr) (s : State) (m : List (Nat × Word)),
    (∀ w, i ≠ .pushMemK w) → (∀ w, i ≠ .pushMemR w) → (∀ w v, i ≠ .pushMemRD w v) → writesData i = false →
      exec i { s with dm := m } = mapNext (fun t => { t with dm := m }) (exec i s)

/-- R73: port events happen in program order: a step adds at most one, behind all earlier ones, and consumes at most one input
value, the first that was to come. -/
def Obligations.PortEventsHappenInOrder : Prop :=
  ∀ s t : State, step s = .next t →
    (t.events = s.events ∧ t.input = s.input)
    ∨ (∃ e, (∀ n, e ≠ .input n) ∧ t.events = s.events ++ [e] ∧ t.input = s.input)
    ∨ (∃ n, t.events = s.events ++ [.input n] ∧ s.input.present = some (n, t.input))

/-- R114: a step sees no code byte but those of the instruction at `pc`: other code of the same length with the same bytes there
gives the same step. -/
def Obligations.AStepSeesOnlyItsOwnBytes : Prop :=
  ∀ (s : State) (other : List Byte) (i : Instr) (len : Nat), decode (s.code.drop s.pc) = .instr i len →
    other.length = s.code.length → (other.drop s.pc).take len = (s.code.drop s.pc).take len →
      step { s with code := other } = mapNext (fun t => { t with code := other }) (step s)

/-- R103: an instruction with no illegal operand word raises neither InvalidRegister nor, with a direct index, a literal
descriptor or a literal target, the fault that such an operand raises. `sqrt` is left out: SQRT_NEG may answer any fault. -/
def Obligations.WellFormedOperandsDoNotFault : Prop :=
  ∀ (i : Instr) (s t : State), i.wellFormed s.codeLength = true → i ≠ .sqrt → s.cause = none → exec i s = .next t →
    t.cause ≠ some .invalidRegister
    ∧ (∀ w, i = .pushMemK w ∨ i = .popMemK w → t.cause ≠ some .memoryOutOfBounds)
    ∧ (∀ w, i = .pixN w → t.cause ≠ some .pixelOutOfBounds)
    ∧ (i ≠ .ret → t.cause ≠ some .controlTransferOutOfBounds)

/-! ### The assembler -/

/-- R128: the assembled byte string is the concatenation of the emitted instructions, and pass 1's total length is the length
emitted, for every accepted program. -/
def Obligations.AssembledLengthIsThePass1Length : Prop :=
  ∀ (lines : List (List (List Char))) (items : List AsmItem) (table : LabelTable) (total : Nat) (bytes : List Byte),
    parseLines lines = .ok items → pass1 items 0 [] = .ok (table, total) → assemble lines = .ok bytes →
      bytes.length = total ∧ ∃ instrs, pass2 table items = .ok instrs ∧ bytes = instrs.flatMap encode

/-- R121: a label's value is the byte offset at which the next instruction's bytes start, and a second definition of the same
name is the error DuplicateLabel. -/
def Obligations.LabelsAreByteOffsets : Prop :=
  (∀ (before behind : List AsmItem) (name : List Char) (table : LabelTable) (total : Nat),
      pass1 (before ++ .label name :: behind) 0 [] = .ok (table, total) →
        labelOffset table name = some ((before.map itemSize).sum))
  ∧ (∀ (before between behind : List AsmItem) (name : List Char),
      pass1 (before ++ .label name :: between ++ .label name :: behind) 0 [] = .error .duplicateLabel)

/-- R104 and R127: the assembler and the decoder share one table: in assembled code, at the offset where an instruction was
emitted, the decoder reads that instruction. -/
def Obligations.AssembledCodeDecodes : Prop :=
  ∀ (lines : List (List (List Char))) (before : List Instr) (i : Instr) (behind : List Instr) (bytes : List Byte),
    assembleInstrs lines = .ok (before ++ i :: behind) → assemble lines = .ok bytes →
      decode (bytes.drop ((before.map Instr.length).sum)) = .instr i i.length
end

