-- ==== Sys2Proof/Tests/Slice0.lean ====
section
/-! SUPPORT. Tests/Slice0.lean: small tests with expected values from spec/95_test_vectors.md (named in each docstring), and
a witness for the hypotheses of every obligation that has some. -/

namespace Sys2Proof.Tests

open Sys2Proof Sys2Proof.Machine

/-- The next state, if there is one. -/
def after : Result → Option State
  | .next t => some t
  | _ => none

/-- What most tests look at: pc, stack and cause of the next state. -/
def seen (r : Result) : Option (Nat × List Word × Option Cause) := (after r).map fun t => (t.pc, t.stack, t.cause)

/-- Reset with the given code. -/
def at_ (code : List Byte) : State := State.boot code (.ending []) 1024

/-- A full stack of two entries, 20 bytes of `nop` code, `pc` 5, and registers that stand for the data indices 0, 1023, 1024
and -1. -/
def full : State where
  x := #v[0, 102300, 102400, -100]
  pc := 5
  stack := [500, 300]
  dm := [(0, 7), (1023, 9)]
  fb := [(321, 3)]
  halted := false
  cause := none
  code := List.replicate 20 0
  stackCapacity := 2
  input := .ending [12, -5]
  events := []

/-- As `full`, with room for one more entry. -/
def nearlyFull : State := { full with stackCapacity := 3 }

/-- As `full`, with one entry. -/
def single : State := { full with stack := [300] }

/-- As `full`, with no entry and no input to come. -/
def drained : State := { full with stack := [], input := .ending [] }

/-- As `nearlyFull`, after a frame. -/
def busy : State := { nearlyFull with events := [.display [(321, 3)]] }

/-- Example E7 as lines of tokens. -/
def sourceE7 : List (List (List Char)) :=
  (linesOf "jmp L\npush 1\nL:\npush 2\nout\nend".toList).map tokensOf

/-- What its lines contribute. -/
def itemsE7 : List AsmItem :=
  [.toLabel 20 "L".toList, .instr (.pushN 1), .label "L".toList, .instr (.pushN 2), .instr .out, .instr .end_]

/-! ### WellFormed: one ill-formed instruction for each check, beside a well-formed one -/

/-- R94: register words 4 and -1 name no register. -/
theorem test_wellFormed_register :
    (Instr.popR 4).wellFormed 5 = false ∧ (Instr.pushMemRD (-1) 0).wellFormed 9 = false ∧ (Instr.popR 3).wellFormed 5 = true := by decide

/-- R66: data words are 0 to 1023. -/
theorem test_wellFormed_index :
    (Instr.pushMemK 1024).wellFormed 5 = false ∧ (Instr.popMemK (-1)).wellFormed 5 = false ∧ (Instr.popMemK 1023).wellFormed 5 = true := by decide

/-- R213 and vectors E5, V-P3, V-P5, V-P1: column 64, row 64, a negative descriptor; the last cell. -/
theorem test_wellFormed_pixel :
    (Instr.pixN 640010).wellFormed 5 = false ∧ (Instr.pixN 640).wellFormed 5 = false ∧ (Instr.pixN (-1)).wellFormed 5 = false
      ∧ (Instr.pixN 630639).wellFormed 5 = true := by decide

/-- R181 and vector V-C6: the code length is no target. -/
theorem test_wellFormed_target :
    (Instr.jmpN 5).wellFormed 5 = false ∧ (Instr.callLabel (-1)).wellFormed 5 = false ∧ (Instr.jaN 4).wellFormed 5 = true := by decide

/-! ### Decoding: a word of every constructor, written out from the encodings of the instruction rules -/

/-- R140 to R148. -/
theorem test_decode_stack_memory :
    decode [0x01, 0x05, 0x00, 0x00, 0x00] = .instr (.pushN 5) 5
      ∧ decode [0x0B, 0x02, 0x00, 0x00, 0x00] = .instr (.pushR 2) 5
      ∧ decode [0x29, 0xFF, 0x03, 0x00, 0x00] = .instr (.pushMemK 1023) 5
      ∧ decode [0x2A, 0x01, 0x00, 0x00, 0x00] = .instr (.pushMemR 1) 5
      ∧ decode [0x2B, 0x01, 0x00, 0x00, 0x00, 0xFC, 0xFF, 0xFF, 0xFF] = .instr (.pushMemRD 1 (-4)) 9
      ∧ decode [0x02, 0x02, 0x00, 0x00, 0x00] = .instr (.popR 2) 5
      ∧ decode [0x34, 0xD0, 0x07, 0x00, 0x00] = .instr (.popMemK 2000) 5
      ∧ decode [0x35, 0x03, 0x00, 0x00, 0x00] = .instr (.popMemR 3) 5
      ∧ decode [0x36, 0x01, 0x00, 0x00, 0x00, 0x05, 0x00, 0x00, 0x00] = .instr (.popMemRD 1 5) 9 := by decide

/-- R161 to R166. -/
theorem test_decode_arithmetic :
    decode [0x03] = .instr .add 1
      ∧ decode [0x04] = .instr .sub 1
      ∧ decode [0x05] = .instr .mul 1
      ∧ decode [0x06] = .instr .div 1
      ∧ decode [0x0E] = .instr .sqrt 1
      ∧ decode [0x0F, 0x03, 0x00, 0x00, 0x00] = .instr (.incR 3) 5 := by decide

/-- R182 to R188. -/
theorem test_decode_transfer :
    decode [0x00] = .instr .nop 1
      ∧ decode [0x07] = .instr .end_ 1
      ∧ decode [0x0A, 0x06, 0x00, 0x00, 0x00] = .instr (.callLabel 6) 5
      ∧ decode [0x0C, 0x05, 0x00, 0x00, 0x00] = .instr (.callN 5) 5
      ∧ decode [0x0D] = .instr .ret 1
      ∧ decode [0x14, 0x0A, 0x00, 0x00, 0x00] = .instr (.jmpLabel 10) 5
      ∧ decode [0x15, 0xFF, 0xFF, 0xFF, 0xFF] = .instr (.jmpN (-1)) 5 := by decide

/-- R190 to R201. -/
theorem test_decode_conditional :
    decode [0x16, 0x10, 0x00, 0x00, 0x00] = .instr (.jaLabel 16) 5
      ∧ decode [0x17, 0x10, 0x00, 0x00, 0x00] = .instr (.jaN 16) 5
      ∧ decode [0x18, 0x37, 0x00, 0x00, 0x00] = .instr (.jaeLabel 55) 5
      ∧ decode [0x19, 0x10, 0x00, 0x00, 0x00] = .instr (.jaeN 16) 5
      ∧ decode [0x1A, 0x10, 0x00, 0x00, 0x00] = .instr (.jbLabel 16) 5
      ∧ decode [0x1B, 0x10, 0x00, 0x00, 0x00] = .instr (.jbN 16) 5
      ∧ decode [0x1C, 0x10, 0x00, 0x00, 0x00] = .instr (.jbeLabel 16) 5
      ∧ decode [0x1D, 0x10, 0x00, 0x00, 0x00] = .instr (.jbeN 16) 5
      ∧ decode [0x1E, 0x10, 0x00, 0x00, 0x00] = .instr (.jeLabel 16) 5
      ∧ decode [0x1F, 0x10, 0x00, 0x00, 0x00] = .instr (.jeN 16) 5
      ∧ decode [0x20, 0x64, 0x00, 0x00, 0x00] = .instr (.jneLabel 100) 5
      ∧ decode [0x21, 0x0F, 0x27, 0x00, 0x00] = .instr (.jneN 9999) 5 := by decide

/-- R210 to R216. -/
theorem test_decode_ports :
    decode [0x08] = .instr .in_ 1
      ∧ decode [0x09] = .instr .out 1
      ∧ decode [0x10, 0x6F, 0x9F, 0x09, 0x00] = .instr (.pixN 630639) 5
      ∧ decode [0x11, 0x09, 0x00, 0x00, 0x00] = .instr (.pixR 9) 5
      ∧ decode [0x12] = .instr .draw 1
      ∧ decode [0x13, 0xFB, 0xFF, 0xFF, 0xFF] = .instr (.delayN (-5)) 5 := by decide

/-- Vectors V-E1, V-E3 to V-E6, V-E8. -/
theorem test_decode_rejects :
    decode [0x22] = .unknownOpcode 34 ∧ decode [0x2C] = .unknownOpcode 44 ∧ decode [0x33] = .unknownOpcode 51
      ∧ decode [0x37] = .unknownOpcode 55 ∧ decode [0xFF] = .unknownOpcode 255 ∧ decode [0x01, 0x05, 0x00] = .truncated
      ∧ decode [0x2B, 0, 0, 0, 0, 1, 0, 0] = .truncated ∧ decode [] = .endOfCode := by decide

/-- The first word is the lowest byte; absent operand words are zeros. -/
theorem test_decodeTableWord :
    decodeTableWord 40 0xFFFFFFFF15 = some (.jmpN (-1)) ∧ decodeTableWord 8 0x2A = some (.pushMemR 0) ∧ decodeTableWord 8 0x28 = none := by decide

/-! ### One step of every instruction, with the expected values of spec/95_test_vectors.md -/

/-- V-S14: 2147483700 wraps. -/
theorem test_pushN_wraps :
    seen (step { State.boot [0x01, 0x15, 0xAE, 0x47, 0x01] (.ending []) 1024 with stack := [] })
      = some (5, [-2147483596], none) := by decide

/-- V-S16. -/
theorem test_pushR :
    seen (step { State.boot [0x0B, 0x03, 0x00, 0x00, 0x00] (.ending []) 1024 with stack := [], x := #v[0, 0, 0, -700] })
      = some (5, [-700], none) := by decide

/-- V-E10. -/
theorem test_pushR_invalid :
    seen (step { State.boot [0x0B, 0x04, 0x00, 0x00, 0x00] (.ending []) 1024 with stack := [] })
      = some (0, [], some .invalidRegister) := by decide

/-- V-S2. -/
theorem test_pushMemK :
    seen (step { State.boot [0x29, 0xFF, 0x03, 0x00, 0x00] (.ending []) 1024 with stack := [], dm := [(1023, 900)] })
      = some (5, [900], none) := by decide

/-- V-S4. -/
theorem test_pushMemK_out :
    seen (step { State.boot [0x29, 0xFF, 0xFF, 0xFF, 0xFF] (.ending []) 1024 with stack := [] })
      = some (0, [], some .memoryOutOfBounds) := by decide

/-- V-S5: 150 / 100 truncates to 1. -/
theorem test_pushMemR :
    seen (step { State.boot [0x2A, 0x00, 0x00, 0x00, 0x00] (.ending []) 1024 with stack := [], x := #v[150, 0, 0, 0], dm := [(1, 700)] })
      = some (5, [700], none) := by decide

/-- V-S7. -/
theorem test_pushMemRD :
    seen (step { State.boot [0x2B, 0x01, 0x00, 0x00, 0x00, 0x07, 0x00, 0x00, 0x00] (.ending []) 1024 with stack := [], x := #v[0, 300, 0, 0], dm := [(10, 4200)] })
      = some (9, [4200], none) := by decide

/-- V-S8: index 3 - 4. -/
theorem test_pushMemRD_out :
    seen (step { State.boot [0x2B, 0x01, 0x00, 0x00, 0x00, 0xFC, 0xFF, 0xFF, 0xFF] (.ending []) 1024 with stack := [], x := #v[0, 300, 0, 0] })
      = some (0, [], some .memoryOutOfBounds) := by decide

/-- V-S1. -/
theorem test_popR :
    (after (step { State.boot [0x02, 0x02, 0x00, 0x00, 0x00] (.ending []) 1024 with stack := [500] })).map (fun t => (t.x, t.stack, t.pc))
      = some (#v[0, 0, 500, 0], [], 5) := by decide

/-- V-E11. -/
theorem test_popR_invalid_before_underflow :
    seen (step { State.boot [0x02, 0xFF, 0xFF, 0xFF, 0xFF] (.ending []) 1024 with stack := [] })
      = some (0, [], some .invalidRegister) := by decide

/-- V-S2. -/
theorem test_popMemK :
    (after (step { State.boot [0x34, 0xFF, 0x03, 0x00, 0x00] (.ending []) 1024 with stack := [900] })).map (fun t => (t.dm, t.stack, t.pc))
      = some ([(1023, 900)], [], 5) := by decide

/-- E4: the bounds check before the stack check. -/
theorem test_popMemK_out :
    seen (step { State.boot [0x34, 0xD0, 0x07, 0x00, 0x00] (.ending []) 1024 with stack := [] })
      = some (0, [], some .memoryOutOfBounds) := by decide

/-- P2, the first store. -/
theorem test_popMemR :
    (after (step { State.boot [0x35, 0x00, 0x00, 0x00, 0x00] (.ending []) 1024 with x := #v[100, 300, 0, 0], stack := [100] })).map (fun t => (t.dm, t.stack, t.pc))
      = some ([(1, 100)], [], 5) := by decide

/-- V-S11: index 102399; the stack keeps its entry. -/
theorem test_popMemR_out :
    seen (step { State.boot [0x35, 0x00, 0x00, 0x00, 0x00] (.ending []) 1024 with stack := [500], x := #v[10239900, 0, 0, 0] })
      = some (0, [500], some .memoryOutOfBounds) := by decide

/-- V-S7. -/
theorem test_popMemRD :
    (after (step { State.boot [0x36, 0x01, 0x00, 0x00, 0x00, 0x07, 0x00, 0x00, 0x00] (.ending []) 1024 with x := #v[0, 300, 0, 0], stack := [4200] })).map (fun t => (t.dm, t.stack, t.pc))
      = some ([(10, 4200)], [], 9) := by decide

/-- The add table. -/
theorem test_add_wraps :
    seen (step { State.boot [0x03] (.ending []) 1024 with stack := [1, 2147483647] })
      = some (1, [-2147483648], none) := by decide

/-- The note after the inc table: one entry only. -/
theorem test_add_underflow :
    seen (step { State.boot [0x03] (.ending []) 1024 with stack := [200] })
      = some (0, [200], some .stackUnderflow) := by decide

/-- The sub table: second 300 minus top 500; the entry below stays. -/
theorem test_sub :
    seen (step { State.boot [0x04] (.ending []) 1024 with stack := [500, 300, 7] })
      = some (1, [-200, 7], none) := by decide

/-- The sub table. -/
theorem test_sub_wraps :
    seen (step { State.boot [0x04] (.ending []) 1024 with stack := [1, -2147483648] })
      = some (1, [2147483647], none) := by decide

/-- The mul table: -7 times 3. -/
theorem test_mul_truncates :
    seen (step { State.boot [0x05] (.ending []) 1024 with stack := [3, -7] })
      = some (1, [0], none) := by decide

/-- The mul table: the product wraps before the division. -/
theorem test_mul_wraps_first :
    seen (step { State.boot [0x05] (.ending []) 1024 with stack := [100000, 100000] })
      = some (1, [14100654], none) := by decide

/-- The div table: -100 by 300. -/
theorem test_div :
    seen (step { State.boot [0x06] (.ending []) 1024 with stack := [300, -100] })
      = some (1, [-33], none) := by decide

/-- E3: the stack is unchanged. -/
theorem test_div_by_zero :
    seen (step { State.boot [0x06] (.ending []) 1024 with stack := [0, 500] })
      = some (0, [0, 500], some .divideByZero) := by decide

/-- The sqrt table: 12 gives 35, the nearest integer to 34.64. -/
theorem test_sqrt_rounds :
    seen (step { State.boot [0x0E] (.ending []) 1024 with stack := [12] })
      = some (1, [35], none) := by decide

/-- The sqrt table. -/
theorem test_sqrt_largest :
    seen (step { State.boot [0x0E] (.ending []) 1024 with stack := [2147483647] })
      = some (1, [463410], none) := by decide

/-- The inc table. -/
theorem test_incR_wraps :
    (after (step { State.boot [0x0F, 0x03, 0x00, 0x00, 0x00] (.ending []) 1024 with x := #v[0, 0, 0, 2147483647] })).map (fun t => (t.x, t.pc))
      = some (#v[0, 0, 0, -2147483549], 5) := by decide

/-- The note after the inc table. -/
theorem test_incR_invalid :
    seen (step { State.boot [0x0F, 0x07, 0x00, 0x00, 0x00] (.ending []) 1024 with stack := [] })
      = some (0, [], some .invalidRegister) := by decide

/-- V-E2. -/
theorem test_nop :
    seen (step { State.boot [0x00] (.ending []) 1024 with stack := [] })
      = some (1, [], none) := by decide

/-- V-C1. -/
theorem test_end :
    (after (step { State.boot (List.replicate 10 0 ++ 0x07 :: List.replicate 9 0) (.ending []) 1024 with pc := 10 })).map (fun t => (t.pc, t.halted, t.cause))
      = some (20, true, none) := by decide

/-- V-C2: the link is 0 + 1. -/
theorem test_callN :
    seen (step { State.boot [0x0C, 0x05, 0x00, 0x00, 0x00, 0x02, 0x00, 0x00, 0x00, 0x00, 0x07] (.ending []) 1024 with stack := [] })
      = some (5, [1], none) := by decide

/-- V-C5. -/
theorem test_callN_target_is_length :
    seen (step { State.boot [0x0C, 0x05, 0x00, 0x00, 0x00] (.ending []) 1024 with stack := [] })
      = some (0, [], some .controlTransferOutOfBounds) := by decide

/-- P3: the call at 10 of 28 bytes. -/
theorem test_callLabel :
    seen (step { State.boot (List.replicate 10 0 ++ 0x0A :: 0x11 :: List.replicate 16 0) (.ending []) 1024 with stack := [], pc := 10 })
      = some (17, [11], none) := by decide

/-- P3: link 11. -/
theorem test_ret :
    seen (step { State.boot (List.replicate 27 0 ++ [0x0D]) (.ending []) 1024 with stack := [11], pc := 27 })
      = some (15, [], none) := by decide

/-- V-C9: nothing is popped. -/
theorem test_ret_out :
    seen (step { State.boot [0x01, 0x01, 0x00, 0x00, 0x00, 0x0D] (.ending []) 1024 with stack := [100], pc := 5 })
      = some (5, [100], some .controlTransferOutOfBounds) := by decide

/-- E7. -/
theorem test_jmpLabel :
    seen (step { State.boot [0x14, 0x0A, 0x00, 0x00, 0x00, 0x01, 0x01, 0x00, 0x00, 0x00, 0x01, 0x02, 0x00, 0x00, 0x00, 0x09, 0x07] (.ending []) 1024 with stack := [] })
      = some (10, [], none) := by decide

/-- V-E12. -/
theorem test_jmpN_into_own_operand :
    seen (step { State.boot [0x15, 0x03, 0x00, 0x00, 0x00] (.ending []) 1024 with stack := [] })
      = some (3, [], none) := by decide

/-- V-C6. -/
theorem test_jmpN_out :
    seen (step { State.boot [0x15, 0x05, 0x00, 0x00, 0x00] (.ending []) 1024 with stack := [] })
      = some (0, [], some .controlTransferOutOfBounds) := by decide

/-- R190 and R191, V-C12 and V-C13: 500 above 300 jumps; equal does not. Label form. -/
theorem test_jaLabel :
    seen (step { State.boot [0x16, 0x02, 0x00, 0x00, 0x00, 0x00, 0x00] (.ending []) 1024 with stack := [500, 300] })
      = some (2, [500, 300], none) := by decide

/-- R190 and R191, V-C12 and V-C13: 500 above 300 jumps; equal does not. Number form. -/
theorem test_jaN :
    seen (step { State.boot [0x17, 0x02, 0x00, 0x00, 0x00, 0x00, 0x00] (.ending []) 1024 with stack := [500, 500] })
      = some (5, [500, 500], none) := by decide

/-- R192 and R193, V-C14 and P2: 400 below 500 does not jump; equal does. Label form. -/
theorem test_jaeLabel :
    seen (step { State.boot [0x18, 0x02, 0x00, 0x00, 0x00, 0x00, 0x00] (.ending []) 1024 with stack := [400, 500] })
      = some (5, [400, 500], none) := by decide

/-- R192 and R193, V-C14 and P2: 400 below 500 does not jump; equal does. Number form. -/
theorem test_jaeN :
    seen (step { State.boot [0x19, 0x02, 0x00, 0x00, 0x00, 0x00, 0x00] (.ending []) 1024 with stack := [300, 300] })
      = some (2, [300, 300], none) := by decide

/-- R194 and R195, V-C15: the comparison is signed. Label form. -/
theorem test_jbLabel :
    seen (step { State.boot [0x1A, 0x02, 0x00, 0x00, 0x00, 0x00, 0x00] (.ending []) 1024 with stack := [-100, 100] })
      = some (2, [-100, 100], none) := by decide

/-- R194 and R195, V-C15: the comparison is signed. Number form. -/
theorem test_jbN :
    seen (step { State.boot [0x1B, 0x02, 0x00, 0x00, 0x00, 0x00, 0x00] (.ending []) 1024 with stack := [100, -100] })
      = some (5, [100, -100], none) := by decide

/-- R196 and R197, V-C16: equal jumps. Label form. -/
theorem test_jbeLabel :
    seen (step { State.boot [0x1C, 0x02, 0x00, 0x00, 0x00, 0x00, 0x00] (.ending []) 1024 with stack := [400, 400] })
      = some (2, [400, 400], none) := by decide

/-- R196 and R197, V-C16: equal jumps. Number form. -/
theorem test_jbeN :
    seen (step { State.boot [0x1D, 0x02, 0x00, 0x00, 0x00, 0x00, 0x00] (.ending []) 1024 with stack := [500, 400] })
      = some (5, [500, 400], none) := by decide

/-- R198 and R199, V-C17. Label form. -/
theorem test_jeLabel :
    seen (step { State.boot [0x1E, 0x02, 0x00, 0x00, 0x00, 0x00, 0x00] (.ending []) 1024 with stack := [400, 400] })
      = some (2, [400, 400], none) := by decide

/-- R198 and R199, V-C17. Number form. -/
theorem test_jeN :
    seen (step { State.boot [0x1F, 0x02, 0x00, 0x00, 0x00, 0x00, 0x00] (.ending []) 1024 with stack := [400, 500] })
      = some (5, [400, 500], none) := by decide

/-- R200 and R201, V-C18 and V-C19. Label form. -/
theorem test_jneLabel :
    seen (step { State.boot [0x20, 0x02, 0x00, 0x00, 0x00, 0x00, 0x00] (.ending []) 1024 with stack := [500, 400] })
      = some (2, [500, 400], none) := by decide

/-- R200 and R201, V-C18 and V-C19. Number form. -/
theorem test_jneN :
    seen (step { State.boot [0x21, 0x02, 0x00, 0x00, 0x00, 0x00, 0x00] (.ending []) 1024 with stack := [100, 100] })
      = some (5, [100, 100], none) := by decide

/-- V-C18: a taken jump checks its target. -/
theorem test_jneN_taken_out :
    seen (step { State.boot [0x21, 0x64, 0x00, 0x00, 0x00] (.ending []) 1024 with stack := [500, 400] })
      = some (0, [500, 400], some .controlTransferOutOfBounds) := by decide

/-- V-I1. -/
theorem test_in :
    (after (step (State.boot [0x08, 0x07] (.ending [-12]) 1024))).map (fun t => (t.stack, t.pc, t.input, t.events))
      = some ([-1200], 1, .ending [], [.input (-12)]) := by decide

/-- V-I3: stuck, neither halted nor faulted. V-I2: a full stack consumes nothing. -/
theorem test_in_waits_or_overflows :
    step (State.boot [0x08] (.ending []) 1024) = .fault .waitingForInput ∧ (State.boot [0x08] (.ending []) 1024).inReq = true
      ∧ (after (step { State.boot [0x08] (.ending [4]) 1 with stack := [300] })).map (fun t => (t.input, t.cause)) = some (.ending [4], some .stackOverflow) := ⟨rfl, rfl, by decide⟩

/-- V-O1. -/
theorem test_out :
    (after (step { State.boot [0x09, 0x09] (.ending []) 1024 with stack := [-300] })).map (fun t => (t.stack, t.pc, outputText t.events))
      = some ([-300], 1, "-3.00\n".toList) := by decide

/-- V-P1: FB[63][63] = 9. -/
theorem test_pixN :
    (after (step (State.boot [0x10, 0x6F, 0x9F, 0x09, 0x00] (.ending []) 1024))).map (fun t => (t.fb, t.pc)) = some ([(64 * 63 + 63, 9)], 5) := by decide

/-- V-P3: row 64. -/
theorem test_pixN_out :
    seen (step { State.boot [0x10, 0x80, 0x02, 0x00, 0x00] (.ending []) 1024 with stack := [] })
      = some (0, [], some .pixelOutOfBounds) := by decide

/-- P3: FB[5][1] = 3. -/
theorem test_pixR :
    (after (step { State.boot [0x11, 0x00, 0x00, 0x00, 0x00] (.ending []) 1024 with x := #v[1005300, 0, 0, 0] })).map (fun t => (t.fb, t.pc)) = some ([(64 * 5 + 1, 3)], 5) := by decide

/-- V-P6: descriptor -1. -/
theorem test_pixR_negative :
    seen (step { State.boot [0x11, 0x00, 0x00, 0x00, 0x00] (.ending []) 1024 with stack := [], x := #v[-100, 0, 0, 0] })
      = some (0, [], some .pixelOutOfBounds) := by decide

/-- P3: one frame with FB[5][1] = 3. -/
theorem test_draw :
    (after (step { State.boot [0x12] (.ending []) 1024 with fb := [(321, 3)] })).map (fun t => (t.events, t.pc)) = some ([.display [(321, 3)]], 1) := by decide

/-- V-D2: no hold. -/
theorem test_delayN :
    (after (step (State.boot [0x13, 0xFB, 0xFF, 0xFF, 0xFF] (.ending []) 1024))).map (fun t => (t.events, t.events.map Event.holdMs, t.pc))
      = some ([.delay (-5)], [0], 5) := by decide

/-! ### Fetch, stops, status, output text, assembler -/

/-- V-E3 and V-E6. -/
theorem test_fetch_faults :
    seen (step (State.boot [0xFF] (.ending []) 1024)) = some (0, [], some .unknownOpcode)
      ∧ seen (step (State.boot [0x01, 0x05, 0x00] (.ending []) 1024)) = some (0, [], some .truncatedInstruction) := by decide

/-- V-E1. -/
theorem test_halts_at_the_end :
    (after (step (State.boot [] (.ending []) 1024))).map (fun t => (t.halted, t.pc, t.cause)) = some (true, 0, none) := by decide

/-- V-S12. -/
theorem test_push_overflow :
    seen (step { State.boot [0x01, 3, 0, 0, 0] (.ending []) 2 with stack := [200, 100] }) = some (0, [200, 100], some .stackOverflow) := by decide

/-- R30 and R31: halted is bit 0; cause 9 stands in bits 7:4 beside faulted in bit 1. -/
theorem test_statusPort :
    (State.halt State.reset).statusPort = 0x01 ∧ (State.setCause State.reset .truncatedInstruction).statusPort = 0x92 ∧ State.reset.statusPort = 0 := by decide

/-- V-O3. -/
theorem test_outLine :
    outLine 0 = "0.00\n".toList ∧ outLine (-5) = "-0.05\n".toList ∧ outLine 350 = "3.50\n".toList
      ∧ outLine (-2147483648) = "-21474836.48\n".toList ∧ outLine 2147483647 = "21474836.47\n".toList := by decide

/-- The instruction placed where the first step fetches runs first. -/
theorem test_withFetchWord :
    seen (step (State.reset.withFetchWord 40 0x0000000501)) = some (5, [500], none) := by decide

/-- E7: a forward label. -/
theorem test_assembleText :
    ((assembleText "jmp L\npush 1\nL:\npush 2\nout\nend\n").toOption)
      = some [0x14, 0x0A, 0x00, 0x00, 0x00, 0x01, 0x01, 0x00, 0x00, 0x00, 0x01, 0x02, 0x00, 0x00, 0x00, 0x09, 0x07] := by decide

/-- E9. -/
theorem test_classify :
    classify "[bx+5]".toList = some (.ramRegImmed "bx".toList 5)
      ∧ ((assembleText "pop [bx+5]").toOption) = some [0x36, 0x01, 0x00, 0x00, 0x00, 0x05, 0x00, 0x00, 0x00] := by decide

/-- R274: what the source still holds is not observed. -/
theorem test_observe :
    (observe { full with events := [.input 12, .output 500] }).events = [.output 500]
      ∧ observe { full with input := .endless, stackCapacity := 9 } = observe full := by decide

/-- The order of errors of log 14, the model's choice. -/
theorem test_assemble_error_order :
    assembleText "a:\na:\nbogus" = .error .unknownMnemonic ∧ assembleText "a:\na:\njmp b" = .error .duplicateLabel := ⟨rfl, rfl⟩

/-! ### Witnesses: for every obligation with hypotheses, states and operands that meet them, at the boundaries of each clause -/

/-- V-C7: `jmp 0` at offset 0 never leaves its state. -/
theorem jump_to_itself_stays {t : State} (h : Reaches (at_ [0x15, 0, 0, 0, 0]) t) : at_ [0x15, 0, 0, 0, 0] = t := by
  generalize hs : at_ [0x15, 0, 0, 0, 0] = s at h
  induction h with
  | refl => rfl
  | step first rest ih =>
    subst hs
    have here : step (at_ [0x15, 0, 0, 0, 0]) = .next (at_ [0x15, 0, 0, 0, 0]) := rfl
    rw [here] at first
    obtain rfl := Host.Outcome.next.inj first
    exact ih rfl

theorem witness_MemReadIsLittleEndian :
    (1 : Nat) + 2 ≤ [0x05, 0x01, 0x02].length
      ∧ 0 < 2 ∧ [0x05, 0x01, 0x02].length < 2 + 2 := by decide

theorem witness_EncodeDecode :
    decode [0x02, 0x03, 0x00, 0x00, 0x00, 0xFF] = .instr (.popR 3) 5 := by decide

theorem witness_StepRunsTheDecodedInstruction :
    busy.halted = false ∧ busy.cause = none ∧ decode (busy.code.drop busy.pc) = .instr .nop 1 := by decide

theorem witness_UnassignedOpcodesRaiseUnknownOpcode :
    ∀ op ∈ [34, 40, 44, 51, 55, 255], (at_ [BitVec.ofNat 8 op]).halted = false ∧ (at_ [BitVec.ofNat 8 op]).cause = none
        ∧ (at_ [BitVec.ofNat 8 op]).code.drop 0 = [BitVec.ofNat 8 op]
        ∧ ((34 ≤ op ∧ op ≤ 40) ∨ (44 ≤ op ∧ op ≤ 51) ∨ 55 ≤ op) := by decide

theorem witness_TruncatedInstructionsRaise :
    (at_ [0x36, 0, 0, 0, 0, 0, 0, 0]).halted = false ∧ (at_ [0x36, 0, 0, 0, 0, 0, 0, 0]).cause = none
      ∧ decodeOpcode 0x36 = some ⟨54, .pop, .ramRegImmed⟩ ∧ 0 + Mode.ramRegImmed.length > (at_ [0x36, 0, 0, 0, 0, 0, 0, 0]).codeLength := by decide

theorem witness_EndOfCodeHalts :
    (at_ []).halted = false ∧ (at_ []).cause = none ∧ (at_ []).codeLength ≤ (at_ []).pc := by decide

theorem witness_AStoppedMachineTakesNoStep :
    busy.halt.halted = true
      ∧ (busy.setCause .divideByZero).halted = false ∧ (busy.setCause .divideByZero).cause = some .divideByZero := by decide

theorem witness_FaultsArePrecise :
    step (at_ [0x09]) = .next ((at_ [0x09]).setCause .stackUnderflow)
      ∧ ((at_ [0x09]).setCause .stackUnderflow).cause ≠ (at_ [0x09]).cause := ⟨rfl, by decide⟩

theorem witness_FaultsAreThoseOfTheTable :
    Instr.out ≠ .sqrt
      ∧ (at_ []).cause = none
      ∧ exec .out (at_ []) = .next ((at_ []).setCause .stackUnderflow)
      ∧ ((at_ []).setCause .stackUnderflow).cause = some .stackUnderflow := ⟨by decide, rfl, rfl, rfl⟩

theorem witness_PushNumber :
    busy.stack.length < busy.stackCapacity ∧ nearlyFull.stack.length + 1 = nearlyFull.stackCapacity
      ∧ full.stack.length = full.stackCapacity := by decide

theorem witness_PushRegister :
    (0 : Word).toInt = ((0 : Fin 4).val : Int) ∧ (3 : Word).toInt = ((3 : Fin 4).val : Int)
      ∧ (-1 : Word).toInt < 0 ∧ 3 < (4 : Word).toInt
      ∧ nearlyFull.stack.length < nearlyFull.stackCapacity ∧ full.stack.length = full.stackCapacity := by decide

theorem witness_PushDirect :
    (0 : Word).toInt = (0 : Nat) ∧ (1023 : Word).toInt = (1023 : Nat) ∧ 1023 < 1024
      ∧ (-1 : Word).toInt < 0 ∧ 1024 ≤ (1024 : Word).toInt
      ∧ 0 ≤ (1023 : Word).toInt ∧ (1023 : Word).toInt < 1024
      ∧ nearlyFull.stack.length < nearlyFull.stackCapacity ∧ full.stack.length = full.stackCapacity := by decide

theorem witness_PushIndirect :
    (0 : Word).toInt = ((0 : Fin 4).val : Int) ∧ (3 : Word).toInt = ((3 : Fin 4).val : Int)
      ∧ (-1 : Word).toInt < 0 ∧ 3 < (4 : Word).toInt
      ∧ Int.tdiv (full.reg 0).toInt 100 = (0 : Nat) ∧ Int.tdiv (full.reg 1).toInt 100 = (1023 : Nat)
      ∧ 1024 ≤ Int.tdiv (full.reg 2).toInt 100 ∧ Int.tdiv (full.reg 3).toInt 100 < 0
      ∧ nearlyFull.x = full.x
      ∧ nearlyFull.stack.length < nearlyFull.stackCapacity ∧ full.stack.length = full.stackCapacity := by decide

theorem witness_PushDisplaced :
    (0 : Word).toInt = ((0 : Fin 4).val : Int) ∧ (3 : Word).toInt = ((3 : Fin 4).val : Int)
      ∧ (-1 : Word).toInt < 0 ∧ 3 < (4 : Word).toInt
      ∧ Int.tdiv (full.reg 1).toInt 100 + (-1023 : Word).toInt = (0 : Nat) ∧ Int.tdiv (full.reg 0).toInt 100 + (1023 : Word).toInt = (1023 : Nat)
      ∧ Int.tdiv (full.reg 0).toInt 100 + (-1 : Word).toInt < 0 ∧ 1024 ≤ Int.tdiv (full.reg 1).toInt 100 + (1 : Word).toInt
      ∧ nearlyFull.x = full.x
      ∧ nearlyFull.stack.length < nearlyFull.stackCapacity ∧ full.stack.length = full.stackCapacity := by decide

theorem witness_PopRegister :
    (0 : Word).toInt = ((0 : Fin 4).val : Int) ∧ (3 : Word).toInt = ((3 : Fin 4).val : Int)
      ∧ (-1 : Word).toInt < 0 ∧ 3 < (4 : Word).toInt
      ∧ full.stack = 500 :: [300] ∧ drained.stack = [] := by decide

theorem witness_PopDirect :
    Memory.wf 1024 full.dm ∧ Memory.wf 1024 drained.dm ∧ full.dm ≠ []
      ∧ (0 : Word).toInt = (0 : Nat) ∧ (1023 : Word).toInt = (1023 : Nat) ∧ 1023 < 1024
      ∧ (-1 : Word).toInt < 0 ∧ 1024 ≤ (1024 : Word).toInt
      ∧ full.stack = 500 :: [300] ∧ drained.stack = [] := by decide

theorem witness_PopIndirect :
    Memory.wf 1024 full.dm ∧ Memory.wf 1024 drained.dm ∧ full.dm ≠ []
      ∧ (0 : Word).toInt = ((0 : Fin 4).val : Int) ∧ (3 : Word).toInt = ((3 : Fin 4).val : Int)
      ∧ (-1 : Word).toInt < 0 ∧ 3 < (4 : Word).toInt
      ∧ Int.tdiv (full.reg 0).toInt 100 = (0 : Nat) ∧ Int.tdiv (full.reg 1).toInt 100 = (1023 : Nat)
      ∧ 1024 ≤ Int.tdiv (full.reg 2).toInt 100 ∧ Int.tdiv (full.reg 3).toInt 100 < 0
      ∧ drained.x = full.x
      ∧ full.stack = 500 :: [300] ∧ drained.stack = [] := by decide

theorem witness_PopDisplaced :
    Memory.wf 1024 full.dm ∧ Memory.wf 1024 drained.dm ∧ full.dm ≠ []
      ∧ (0 : Word).toInt = ((0 : Fin 4).val : Int) ∧ (3 : Word).toInt = ((3 : Fin 4).val : Int)
      ∧ (-1 : Word).toInt < 0 ∧ 3 < (4 : Word).toInt
      ∧ Int.tdiv (full.reg 1).toInt 100 + (-1023 : Word).toInt = (0 : Nat) ∧ Int.tdiv (full.reg 0).toInt 100 + (1023 : Word).toInt = (1023 : Nat)
      ∧ Int.tdiv (full.reg 0).toInt 100 + (-1 : Word).toInt < 0 ∧ 1024 ≤ Int.tdiv (full.reg 1).toInt 100 + (1 : Word).toInt
      ∧ drained.x = full.x
      ∧ full.stack = 500 :: [300] ∧ drained.stack = [] := by decide

theorem witness_AddReplacesTheTopTwo :
    full.stack = 500 :: 300 :: [] ∧ single.stack.length < 2 := by decide

theorem witness_SubAndMulReplaceTheTopTwo :
    full.stack = 500 :: 300 :: [] ∧ single.stack.length < 2 := by decide

theorem witness_DivReplacesTheTopTwo :
    full.stack = 500 :: 300 :: [] ∧ single.stack.length < 2
      ∧ (500 : Word).toInt ≠ 0 ∧ ({ full with stack := [0, 300] } : State).stack = 0 :: 300 :: [] ∧ (0 : Word).toInt = 0 := by decide

theorem witness_SqrtOfANonNegativeValue :
    ({ full with stack := [0] } : State).stack = 0 :: [] ∧ 0 ≤ (0 : Word).toInt
      ∧ full.stack = 500 :: [300] ∧ 0 ≤ (500 : Word).toInt ∧ drained.stack = [] := by decide

theorem witness_SqrtOfANegativeValueFollowsSqrtNeg :
    ({ full with stack := [-1, 7] } : State).stack = -1 :: [7] ∧ (-1 : Word).toInt < 0 := by decide

theorem witness_IncRegister :
    (0 : Word).toInt = ((0 : Fin 4).val : Int) ∧ (3 : Word).toInt = ((3 : Fin 4).val : Int)
      ∧ (-1 : Word).toInt < 0 ∧ 3 < (4 : Word).toInt := by decide

theorem witness_CallPushesItsLink :
    (0 : Word).toInt = (0 : Nat) ∧ 0 < full.codeLength ∧ (19 : Word).toInt = (19 : Nat) ∧ 19 < full.codeLength
      ∧ nearlyFull.code = full.code
      ∧ (-1 : Word).toInt < 0 ∧ (full.codeLength : Int) ≤ (20 : Word).toInt
      ∧ 0 ≤ (19 : Word).toInt ∧ (19 : Word).toInt < full.codeLength
      ∧ nearlyFull.stack.length < nearlyFull.stackCapacity ∧ full.stack.length = full.stackCapacity := by decide

theorem witness_RetGoesToLinkPlusFour :
    (wrap32 ((-4 : Word).toInt + 4)).toInt = (0 : Nat) ∧ (wrap32 ((15 : Word).toInt + 4)).toInt = (19 : Nat) ∧ 19 < full.codeLength
      ∧ (full.codeLength : Int) ≤ (wrap32 ((16 : Word).toInt + 4)).toInt ∧ (wrap32 ((2147483647 : Word).toInt + 4)).toInt < 0
      ∧ ({ full with stack := [15] } : State).stack = 15 :: [] ∧ drained.stack = [] := by decide

theorem witness_JmpGoesToItsTarget :
    (0 : Word).toInt = (0 : Nat) ∧ 0 < full.codeLength ∧ (19 : Word).toInt = (19 : Nat) ∧ 19 < full.codeLength
      ∧ (-1 : Word).toInt < 0 ∧ (full.codeLength : Int) ≤ (20 : Word).toInt := by decide

theorem witness_ConditionalJumps :
    (0x16, Instr.jaLabel 19) ∈ (conditionalForms 19).map (fun f => (f.1, f.2.1)) ∧ (conditionalForms 19).length = 12
      ∧ (∀ f ∈ conditionalForms 19, ∃ p ∈ [((-1 : Int), (1 : Int)), (1, -1), (1, 1)], f.2.2 p.1 p.2 = true)
      ∧ (∀ f ∈ conditionalForms 19, ∃ p ∈ [((-1 : Int), (1 : Int)), (1, -1), (1, 1)], f.2.2 p.1 p.2 = false)
      ∧ (19 : Word).toInt = (19 : Nat) ∧ 19 < full.codeLength ∧ (full.codeLength : Int) ≤ (20 : Word).toInt ∧ (-1 : Word).toInt < 0
      ∧ full.stack = 500 :: 300 :: [] ∧ single.stack.length < 2 := by decide

theorem witness_RetReturnsBehindTheCall :
    nearlyFull.codeLength ≤ maxCodeLength ∧ nearlyFull.pc + 5 < nearlyFull.codeLength ∧ nearlyFull.cause = none
      ∧ exec (.callN 19) nearlyFull = .next { nearlyFull with pc := 19, stack := 6 :: nearlyFull.stack } := ⟨by decide, by decide, by decide, rfl⟩

theorem witness_InReadsOneValue :
    nearlyFull.stack.length < nearlyFull.stackCapacity ∧ nearlyFull.input = ⟨12 :: [-5], none⟩
      ∧ full.stack.length = full.stackCapacity
      ∧ drained.stack.length < drained.stackCapacity ∧ drained.input = ⟨[], none⟩
      ∧ ({ drained with input := .endless } : State).input = ⟨[], some 0⟩ := by decide

theorem witness_AnEndlessInputNeverSticks :
    (State.boot [0x08] .endless 1).input.beyond ≠ none
      ∧ Reaches (State.boot [0x08] .endless 1) { State.boot [0x08] ⟨[], some 1⟩ 1 with
          pc := 1, stack := [scaleUp (Config.inputStream 0)], events := [.input (Config.inputStream 0)] } := ⟨by decide, .step rfl (.refl _)⟩

theorem witness_OutEmitsTheTop :
    full.stack = 500 :: [300] ∧ drained.stack = [] := by decide

theorem witness_PixWritesOneCell :
    Memory.wf 4096 full.fb ∧ full.fb ≠ []
      ∧ (-1 : Word).toInt < 0 ∧ 3 < (4 : Word).toInt
      ∧ (0 : Word).toInt = ((0 : Fin 4).val : Int) ∧ (3 : Word).toInt = ((3 : Fin 4).val : Int)
      ∧ 0 ≤ (630639 : Word).toInt ∧ (630639 : Word).toInt / 10000 = (63 : Nat) ∧ (630639 : Word).toInt / 10 % 1000 = (63 : Nat)
      ∧ 0 ≤ (0 : Word).toInt ∧ (0 : Word).toInt / 10000 = (0 : Nat) ∧ (0 : Word).toInt / 10 % 1000 = (0 : Nat)
      ∧ (-1 : Word).toInt < 0 ∧ 64 ≤ (640010 : Word).toInt / 10000 ∧ 64 ≤ (640 : Word).toInt / 10 % 1000
      ∧ Int.tdiv (({ full with x := #v[63063900, -100, 64000000, 64000] } : State).reg 0).toInt 100 = 630639
      ∧ Int.tdiv (({ full with x := #v[63063900, -100, 64000000, 64000] } : State).reg 1).toInt 100 = -1 := by decide

theorem witness_EveryStepKeepsTheInvariant :
    Inv busy
      ∧ step busy = .next (busy.advance 1) := ⟨⟨by decide, by decide, ⟨by decide, by decide⟩,
      by simp only [busy, List.mem_singleton, Event.display.injEq, forall_eq]; exact ⟨by decide, by decide⟩, by decide, by decide, by decide,
      by decide⟩, rfl⟩

theorem witness_ResetHasTheInvariant :
    [0x07#8].length ≤ maxCodeLength := by decide

theorem witness_ARunEndsInExactlyOneOfFourWays :
    Inv (at_ [])
      ∧ Reaches (at_ []) (at_ []).halt
      ∧ normallyHalted (at_ []).halt
      ∧ faultStopped ((at_ []).setCause .divideByZero)
      ∧ stuck (at_ [0x08])
      ∧ Inv (at_ [0x15, 0, 0, 0, 0])
      ∧ hangs (at_ [0x15, 0, 0, 0, 0]) := ⟨⟨by decide, by decide, ⟨by decide, by decide⟩, by simp [at_, State.boot], by decide, by decide, by decide, by decide⟩,
      .step rfl (.refl _), ⟨rfl, rfl⟩, ⟨rfl, by decide⟩, rfl,
      ⟨by decide, by decide, ⟨by decide, by decide⟩, by simp [at_, State.boot], by decide, by decide, by decide, by decide⟩,
      fun t h => ⟨at_ [0x15, 0, 0, 0, 0], by rw [← jump_to_itself_stays h]; rfl⟩⟩

theorem witness_CodeIsReadOnly :
    step busy = .next (busy.advance 1) := rfl

theorem witness_OnlyTheNamedInstructionsTouchRegisters :
    writesRegister .out = false
      ∧ exec .out full = .next ((full.emit (.output 500)).advance 1)
      ∧ readsRegister .in_ = false ∧ readsRegister (.popR 2) = false := ⟨rfl, rfl, by decide⟩

theorem witness_OnlyTheNamedInstructionsWrite :
    exec (.popR 0) full = .next (((full.setStack [300]).setReg 0 500).advance 5)
      ∧ writesData (.popR 0) = false ∧ writesFrame (.popR 0) = false ∧ usesPort (.popR 0) = false ∧ Instr.popR 0 ≠ .end_ ∧ Instr.popR 0 ≠ .in_ := ⟨rfl, by decide⟩

theorem witness_OnlyMemoryFormsSeeDataMemory :
    (∀ w, Instr.draw ≠ .pushMemK w)
      ∧ (∀ w, Instr.draw ≠ .pushMemR w)
      ∧ (∀ w v, Instr.draw ≠ .pushMemRD w v)
      ∧ writesData .draw = false := by simp [writesData]

theorem witness_PortEventsHappenInOrder :
    (after (step (State.boot [0x08] (.ending [-12]) 1024))).isSome := by decide

theorem witness_AStepSeesOnlyItsOwnBytes :
    decode (busy.code.drop busy.pc) = .instr .nop 1
      ∧ (List.replicate 5 0xFF ++ 0 :: List.replicate 14 (0xFF : Byte)).length = busy.code.length
      ∧ ((List.replicate 5 0xFF ++ 0 :: List.replicate 14 (0xFF : Byte)).drop busy.pc).take 1 = (busy.code.drop busy.pc).take 1 := by decide

theorem witness_WellFormedOperandsDoNotFault :
    (Instr.popMemK 1023).wellFormed full.codeLength = true ∧ (Instr.pixN 630639).wellFormed full.codeLength = true
      ∧ (Instr.callN 19).wellFormed full.codeLength = true ∧ (Instr.pushR 3).wellFormed full.codeLength = true ∧ full.cause = none ∧ Instr.pushR 3 ≠ .sqrt
      ∧ exec (.pushR 3) full = .next (full.setCause .stackOverflow) := ⟨by decide, by decide, by decide, by decide, by decide, by decide, rfl⟩

theorem witness_AssembledLengthIsThePass1Length :
    (parseLines sourceE7).toOption = some itemsE7
      ∧ (pass1 itemsE7 0 []).toOption = some ([("L".toList, 10)], 17)
      ∧ ((assemble sourceE7).toOption).map List.length = some 17 := by decide

theorem witness_LabelsAreByteOffsets :
    (pass1 (itemsE7.take 2 ++ .label "L".toList :: itemsE7.drop 3) 0 []).toOption = some ([("L".toList, 10)], 17) := by decide

theorem witness_AssembledCodeDecodes :
    (assembleInstrs sourceE7).toOption = some ([.jmpLabel 10, .pushN 1] ++ .pushN 2 :: [.out, .end_])
      ∧ (assemble sourceE7).toOption.isSome := by decide

end Sys2Proof.Tests
end

section
/-! Proofs for 00_scope.md. First a calculus of completion: `Completes P r` says that an outcome is a next state of which `P`
holds, with one rule per shared operation of Laws/Ops.lean. Then what an instruction does to the input port, and from it that a
run on an endless input stream is never stuck. -/

namespace Sys2Proof.Machine

variable {s t : State} {P Q : State → Prop}

/-! ### Completion -/

/-- The outcome is a next state of which `P` holds. A raised fault is a next state too (log 5). -/
def Completes (P : State → Prop) (r : Result) : Prop := ∃ t, r = .next t ∧ P t

/-- A next state completes with what holds of it. -/
@[simp] theorem completes_next : Completes P (.next t) ↔ P t := by simp [Completes]

/-- A raise completes with what holds of the state with its `cause` written (R232). -/
@[simp] theorem completes_raise {c : Cause} : Completes P (raise c s) ↔ P (s.setCause c) := completes_next

/-- A stop does not complete. -/
@[simp] theorem not_completes_fault {r : Fault} : ¬ Completes P (.fault r) := by simp [Completes]

theorem Completes.mono {r : Result} (h : Completes P r) (imp : ∀ t, P t → Q t) : Completes Q r := by
  obtain ⟨t, rfl, ht⟩ := h
  exact ⟨t, rfl, imp t ht⟩

/-- What an outcome completes with holds of its next state. -/
theorem Completes.of_next {r : Result} (h : Completes P r) (hr : r = .next t) : P t := by
  subst hr
  exact completes_next.1 h

theorem completes_pushing {v : Word} {k : State → Result}
    (ok : s.stack.length < s.stackCapacity → Completes P (k (s.setStack (v :: s.stack))))
    (full : s.stackCapacity ≤ s.stack.length → P (s.setCause .stackOverflow)) : Completes P (pushing v s k) := by
  rcases Nat.lt_or_ge s.stack.length s.stackCapacity with h | h
  · rw [pushing_ok h]
    exact ok h
  · rw [pushing_raises h]
    exact completes_raise.2 (full h)

theorem completes_popping {k : Word → State → Result}
    (ok : ∀ v rest, s.stack = v :: rest → Completes P (k v (s.setStack rest)))
    (empty : s.stack = [] → P (s.setCause .stackUnderflow)) : Completes P (popping s k) := by
  cases h : s.stack with
  | nil =>
    rw [popping_raises h]
    exact completes_raise.2 (empty h)
  | cons v rest =>
    rw [popping_ok h]
    exact ok v rest h

theorem completes_peekTop {k : Word → Result} (ok : ∀ v rest, s.stack = v :: rest → Completes P (k v))
    (empty : s.stack = [] → P (s.setCause .stackUnderflow)) : Completes P (peekTop s k) := by
  cases h : s.stack with
  | nil =>
    rw [peekTop_raises h]
    exact completes_raise.2 (empty h)
  | cons v rest =>
    rw [peekTop_ok h]
    exact ok v rest h

theorem completes_peekTopTwo {k : Word → Word → Result}
    (ok : ∀ v u rest, s.stack = v :: u :: rest → Completes P (k v u))
    (short : s.stack.length < 2 → P (s.setCause .stackUnderflow)) : Completes P (peekTopTwo s k) := by
  match hs : s.stack with
  | [] | [_] =>
    have h : s.stack.length < 2 := by simp [hs]
    rw [peekTopTwo_raises h]
    exact completes_raise.2 (short h)
  | v :: u :: rest =>
    rw [peekTopTwo_ok hs]
    exact ok v u rest hs

theorem completes_withReg {w : Word} {k : Fin 4 → Result}
    (ok : ∀ r : Fin 4, w.toInt = (r : Nat) → Completes P (k r))
    (bad : w.toInt < 0 ∨ 3 < w.toInt → P (s.setCause .invalidRegister)) : Completes P (withReg w s k) := by
  cases hr : regIndex w with
  | none =>
    have h := regIndex_eq_none.1 hr
    rw [withReg_raises h]
    exact completes_raise.2 (bad h)
  | some r =>
    have h := regIndex_eq_some.1 hr
    rw [withReg_ok h]
    exact ok r h

theorem completes_withIndex {i : Int} {k : Nat → Result}
    (ok : ∀ n : Nat, i = n ∧ n < dmemWords → Completes P (k n))
    (bad : i < 0 ∨ 1024 ≤ i → P (s.setCause .memoryOutOfBounds)) : Completes P (withIndex i s k) := by
  cases hi : dataIndex i with
  | none =>
    have h := dataIndex_eq_none.1 hi
    rw [withIndex_raises h]
    exact completes_raise.2 (bad h)
  | some n =>
    have h := dataIndex_eq_some.1 hi
    rw [withIndex_ok h]
    exact ok n h

theorem completes_withTarget {tgt : Int} {k : Nat → Result}
    (ok : ∀ n : Nat, tgt = n ∧ n < s.codeLength → Completes P (k n))
    (bad : tgt < 0 ∨ (s.codeLength : Int) ≤ tgt → P (s.setCause .controlTransferOutOfBounds)) :
    Completes P (withTarget tgt s k) := by
  cases ht : codeTarget s.codeLength tgt with
  | none =>
    have h := codeTarget_eq_none.1 ht
    rw [withTarget_raises h]
    exact completes_raise.2 (bad h)
  | some n =>
    have h := codeTarget_eq_some.1 ht
    rw [withTarget_ok h]
    exact ok n h

theorem completes_withPixel {d : Int} {k : Pixel → Result}
    (ok : ∀ p, pixelOf d = some p → Completes P (k p))
    (bad : pixelOf d = none → P (s.setCause .pixelOutOfBounds)) : Completes P (withPixel d s k) := by
  unfold withPixel
  split
  · exact completes_raise.2 (bad ‹_›)
  · exact ok _ ‹_›

/-- Receiving completes exactly where the port presents a value (R53, R276). -/
theorem completes_receiving {k : Word → State → Result} (waits : s.input.present ≠ none)
    (ok : ∀ n rest, s.input.present = some (n, rest) → Completes P (k n ((s.setInput rest).emit (.input n)))) :
    Completes P (receiving s k) := by
  unfold receiving
  split
  · exact absurd ‹_› waits
  · exact ok _ _ ‹_›

/-! ### Every instruction but `in` completes and leaves the input port alone -/

/-- The input port has still to present what it had in `s`. -/
def SameInput (s t : State) : Prop := t.input = s.input

theorem pushAndAdvance_sameInput (v : Word) (len : Nat) : Completes (SameInput s) (pushAndAdvance v len s) :=
  completes_pushing (fun _ => completes_next.2 rfl) fun _ => rfl

theorem popToData_sameInput (i len : Nat) : Completes (SameInput s) (popToData i len s) :=
  completes_popping (fun _ _ _ => completes_next.2 rfl) fun _ => rfl

theorem binary_sameInput (f : Word → Word → Word) : Completes (SameInput s) (binary f s) :=
  completes_peekTopTwo (fun _ _ _ _ => completes_next.2 rfl) fun _ => rfl

theorem jumpTo_sameInput (w1 : Word) : Completes (SameInput s) (jumpTo w1 s) :=
  completes_withTarget (fun _ _ => completes_next.2 rfl) fun _ => rfl

theorem callTo_sameInput (w1 : Word) : Completes (SameInput s) (callTo w1 s) :=
  completes_withTarget (fun _ _ => completes_pushing (fun _ => completes_next.2 rfl) fun _ => rfl) fun _ => rfl

theorem jumpIf_sameInput (c : Cond) (w1 : Word) : Completes (SameInput s) (jumpIf c w1 s) := by
  refine completes_peekTopTwo (fun v u _ _ => ?_) fun _ => rfl
  split
  · exact jumpTo_sameInput w1
  · exact completes_next.2 rfl

theorem pixelWrite_sameInput (d : Int) : Completes (SameInput s) (pixelWrite d s) :=
  completes_withPixel (fun _ _ => completes_next.2 rfl) fun _ => rfl

/-- A data index of mode `RAM_REG` or `RAM_REG_IMMED`, computed from a register. -/
theorem withReg_withIndex_sameInput {w1 : Word} {index : Fin 4 → Int} {k : Nat → Result}
    (ok : ∀ n, Completes (SameInput s) (k n)) :
    Completes (SameInput s) (withReg w1 s fun r => withIndex (index r) s k) :=
  completes_withReg (fun _ _ => completes_withIndex (fun n _ => ok n) fun _ => rfl) fun _ => rfl

theorem execDiv_sameInput : Completes (SameInput s) (execDiv s) := by
  refine completes_peekTopTwo (fun v u _ _ => ?_) fun _ => rfl
  split
  · exact completes_raise.2 rfl
  · exact completes_next.2 rfl

/-- Whatever SQRT_NEG answers, `sqrt` completes (R165). -/
theorem execSqrt_sameInput : Completes (SameInput s) (execSqrt s) := by
  refine completes_peekTop (fun v _ _ => ?_) fun _ => rfl
  split
  · exact completes_next.2 rfl
  · split
    · exact completes_next.2 rfl
    · exact completes_raise.2 rfl

theorem execRet_sameInput : Completes (SameInput s) (execRet s) :=
  completes_peekTop
    (fun _ _ _ => completes_withTarget
      (fun _ _ => completes_popping (fun _ _ _ => completes_next.2 rfl) fun _ => rfl) fun _ => rfl)
    fun _ => rfl

/-- Only `in` can wait, and only `in` consumes input (R71, R276). -/
theorem exec_sameInput {i : Instr} (h : i ≠ .in_) (s : State) : Completes (SameInput s) (exec i s) := by
  cases i with
  | in_ => exact absurd rfl h
  | nop | end_ | draw | delayN _ => exact completes_next.2 rfl
  | add | sub | mul => exact binary_sameInput _
  | div => exact execDiv_sameInput
  | sqrt => exact execSqrt_sameInput
  | ret => exact execRet_sameInput
  | out => exact completes_peekTop (fun _ _ _ => completes_next.2 rfl) fun _ => rfl
  | incR _ => exact completes_withReg (fun _ _ => completes_next.2 rfl) fun _ => rfl
  | popR _ =>
    exact completes_withReg
      (fun _ _ => completes_popping (fun _ _ _ => completes_next.2 rfl) fun _ => rfl) fun _ => rfl
  | pixN _ => exact pixelWrite_sameInput _
  | pixR _ => exact completes_withReg (fun _ _ => pixelWrite_sameInput _) fun _ => rfl
  | pushN _ => exact pushAndAdvance_sameInput _ _
  | pushR _ => exact completes_withReg (fun _ _ => pushAndAdvance_sameInput _ _) fun _ => rfl
  | pushMemK _ => exact completes_withIndex (fun _ _ => pushAndAdvance_sameInput _ _) fun _ => rfl
  | pushMemR _ | pushMemRD _ _ => exact withReg_withIndex_sameInput fun _ => pushAndAdvance_sameInput _ _
  | popMemK _ => exact completes_withIndex (fun _ _ => popToData_sameInput _ _) fun _ => rfl
  | popMemR _ | popMemRD _ _ => exact withReg_withIndex_sameInput fun _ => popToData_sameInput _ _
  | callLabel _ | callN _ => exact callTo_sameInput _
  | jmpLabel _ | jmpN _ => exact jumpTo_sameInput _
  | jaLabel _ | jaN _ | jaeLabel _ | jaeN _ | jbLabel _ | jbN _ | jbeLabel _ | jbeN _ | jeLabel _ | jeN _ | jneLabel _
  | jneN _ => exact jumpIf_sameInput _ _

/-! ### Runs on an input stream that does not end -/

/-- The input stream does not end (R53, D24). -/
def EndlessInput (s : State) : Prop := s.input.beyond ≠ none

/-- An endless stream always has a value to present. -/
theorem EndlessInput.present_ne_none (h : EndlessInput s) : s.input.present ≠ none := fun hp =>
  h (InputSource.present_eq_none.1 hp).2

/-- A stream of which one value has been consumed is still endless. -/
theorem EndlessInput.of_present (h : EndlessInput s) {n : Word} {rest : InputSource}
    (hp : s.input.present = some (n, rest)) : rest.beyond ≠ none := by
  rw [← Option.isSome_iff_ne_none, InputSource.present_beyond hp]
  exact Option.isSome_iff_ne_none.2 h

/-- On an endless stream `in` does not wait. -/
theorem execIn_endless (h : EndlessInput s) : Completes EndlessInput (execIn s) := by
  unfold execIn
  split
  · refine completes_receiving h.present_ne_none fun n rest hp => ?_
    have hrest := h.of_present hp
    exact completes_pushing (fun _ => completes_next.2 hrest) fun _ => hrest
  · exact completes_raise.2 h

theorem exec_endless (i : Instr) (h : EndlessInput s) : Completes EndlessInput (exec i s) := by
  by_cases hi : i = .in_
  · subst hi
    exact execIn_endless h
  · refine (exec_sameInput hi s).mono fun t ht => ?_
    rw [EndlessInput, ht]
    exact h

theorem dispatch_endless (h : EndlessInput s) : Completes EndlessInput (dispatch exec s) := by
  unfold dispatch
  split
  · exact exec_endless _ h
  · exact completes_raise.2 h
  · exact completes_raise.2 h
  · exact completes_next.2 h

/-- On an endless stream a step completes, or the machine has stopped already (R275). -/
theorem step_endless (h : EndlessInput s) :
    step s = .fault .halted ∨ (∃ c, step s = .fault (.faulted c)) ∨ Completes EndlessInput (step s) := by
  unfold step
  split
  · exact .inl rfl
  · split
    · exact .inr (.inl ⟨_, rfl⟩)
    · split
      · exact .inr (.inr (completes_next.2 h))
      · exact .inr (.inr (dispatch_endless h))

theorem step_next_endless (h : EndlessInput s) (hs : step s = .next t) : EndlessInput t := by
  rcases step_endless h with hf | ⟨c, hf⟩ | hc
  · simp [hf] at hs
  · simp [hf] at hs
  · exact hc.of_next hs

theorem EndlessInput.not_stuck (h : EndlessInput s) : ¬ stuck s := by
  intro hstuck
  rw [stuck] at hstuck
  rcases step_endless h with hf | ⟨c, hf⟩ | hc
  · simp [hf] at hstuck
  · simp [hf] at hstuck
  · rw [hstuck] at hc
    exact not_completes_fault hc

/-- What every step keeps holds all along a run. -/
theorem Reaches.keeps (hstep : ∀ {s t}, P s → Sys2Proof.Machine.step s = .next t → P t) (hr : Reaches s t) (hs : P s) :
    P t := by
  induction hr with
  | refl => exact hs
  | step first _ ih => exact ih (hstep hs first)

/-- Settles O40: every step keeps the stream endless, and on an endless stream no step waits. -/
theorem anEndlessInputNeverSticks : Obligations.AnEndlessInputNeverSticks := by
  intro s t hs hr
  have ht : EndlessInput t := hr.keeps step_next_endless hs
  exact ⟨ht, ht.not_stuck⟩

/-! ### wrap32 (R11) -/

/-- `wrap32` changes a value by a multiple of `2^32`. -/
theorem dvd_wrap32_toInt_sub (v : Int) : (4294967296 : Int) ∣ (wrap32 v).toInt - v := by
  rw [wrap32, BitVec.toInt_ofInt]
  exact Int.dvd_bmod_sub_self

/-- Settles O1: a word's signed value is in range, and `wrap32` keeps the residue. -/
theorem wrap32IsTheSignedResidue : Obligations.Wrap32IsTheSignedResidue := fun v =>
  ⟨BitVec.le_toInt (wrap32 v), BitVec.toInt_lt, dvd_wrap32_toInt_sub v⟩

end Sys2Proof.Machine
end

section
/-! Proofs for 10_state.md. First the status port. Then what an instruction can do to the state, said once for all of `exec`:
`exec_finishes` inverts a completed instruction into writes inside its own footprint and one way to finish; the invariant of
the machine and the frame of the registers follow from it by induction on the writes. Last a calculus of two runs side by side,
`Matches R`, and from it that the instructions outside R23's readers do not depend on the registers. -/

namespace Sys2Proof.Machine

variable {s s' t : State}

/-! ### The status port (R31) -/

/-- No cause has the code 0 of "none" (R30, D20). -/
theorem Cause.code_ne_zero (c : Cause) : c.code ≠ 0 := by
  cases c <;> decide

/-- `faulted` says whether a fault has occurred (R30, R31). -/
theorem State.faulted_eq (s : State) : s.faulted = decide (s.cause ≠ none) := by
  cases h : s.cause with
  | none => simp [State.faulted, State.causeCode, h]
  | some c => simpa [State.faulted, State.causeCode, h] using Cause.code_ne_zero c

/-- The lower half of the status port: bit 0 is `halted`, bit 1 `faulted`, bits 2 and 3 are 0. -/
theorem State.statusPort_low (s : State) :
    s.statusPort.getLsbD 0 = s.halted ∧ s.statusPort.getLsbD 1 = s.faulted
      ∧ s.statusPort.getLsbD 2 = false ∧ s.statusPort.getLsbD 3 = false := by
  simp only [State.statusPort, BitVec.getLsbD_append]
  simp

/-- The upper half of the status port is the code of the cause. -/
theorem State.statusPort_high (s : State) : s.statusPort >>> 4 = s.causeCode.setWidth 8 := by
  have layout : ∀ (c : BitVec 4) (f h : Bool),
      (c ++ (0 : BitVec 2) ++ BitVec.ofBool f ++ BitVec.ofBool h) >>> 4 = c.setWidth 8 := by decide
  exact layout s.causeCode s.faulted s.halted

/-- Settles O9: the two halves of the port, and the code of each of the ten values of `cause`. -/
theorem statusPortLayout : Obligations.StatusPortLayout := by
  intro s
  obtain ⟨h0, h1, h2, h3⟩ := s.statusPort_low
  refine ⟨h0, h1.trans s.faulted_eq, h2, h3, fun p hp => ?_⟩
  rw [State.statusPort_high]
  simp only [List.mem_cons, List.not_mem_nil, or_false] at hp
  rcases hp with rfl | rfl | rfl | rfl | rfl | rfl | rfl | rfl | rfl | rfl <;> rfl

/-! ### What an instruction can do to the state -/

/-- `t` is `s` after writes that the instruction is allowed, before `pc` moves: the stack, and of the rest what R23, R35, R36
and R71 give to the instruction. -/
inductive Writes (i : Instr) (s : State) : State → Prop where
  | none : Writes i s s
  /-- The stack gets no deeper than its capacity, or than it was (R32, R33). -/
  | stack {t : State} (before : Writes i s t) {st : List Word} (depth : st.length ≤ max t.stack.length t.stackCapacity) :
      Writes i s (t.setStack st)
  | reg {t : State} (before : Writes i s t) (allowed : writesRegister i = true) (r : Fin 4) (v : Word) :
      Writes i s (t.setReg r v)
  | data {t : State} (before : Writes i s t) (allowed : writesData i = true) {n : Nat} (inside : n < dmemWords) (v : Word) :
      Writes i s (t.writeData n v)
  | pixel {t : State} (before : Writes i s t) (allowed : writesFrame i = true) {p : Pixel}
      (inside : p.cell < fbCells ∧ p.color ≤ 9) : Writes i s (t.writePixel p)
  /-- A frame that is emitted is the framebuffer as it stands (R215). -/
  | event {t : State} (before : Writes i s t) (allowed : usesPort i = true) {e : Event}
      (asItStands : ∀ fb, e = .display fb → fb = t.fb) : Writes i s (t.emit e)
  | input {t : State} (before : Writes i s t) (allowed : i = .in_) (rest : InputSource) : Writes i s (t.setInput rest)

/-- The ways in which an instruction completes: a fault on the untouched state (R232), the default advance (R112), a transfer
into the code (R180, R181), or the halt of `end` (R183). -/
inductive Finishes (i : Instr) (s : State) : State → Prop where
  | raised (c : Cause) : Finishes i s (s.setCause c)
  | advanced {t : State} (writes : Writes i s t) {len : Nat} (own : len = i.length) : Finishes i s (t.advance len)
  | transferred {t : State} (writes : Writes i s t) {n : Nat} (inside : n < s.codeLength) : Finishes i s (t.transfer n)
  | halted (isEnd : i = .end_) : Finishes i s (s.halt.transfer s.codeLength)

section SharedOperations

variable {i : Instr} {len : Nat}

theorem pushAndAdvance_finishes (v : Word) (own : len = i.length) :
    Completes (Finishes i s) (pushAndAdvance v len s) :=
  completes_pushing (fun h => completes_next.2 (.advanced (.stack .none (by simp; omega)) own)) fun _ => .raised _

theorem popToData_finishes (allowed : writesData i = true) {n : Nat} (inside : n < dmemWords) (own : len = i.length) :
    Completes (Finishes i s) (popToData n len s) :=
  completes_popping
    (fun v _ hs => completes_next.2 (.advanced (.data (.stack .none (by simp [hs])) allowed inside v) own))
    fun _ => .raised _

/-- To replace entries that are there makes the stack no deeper. -/
theorem Writes.replaceTop {n : Nat} (hn : 0 < n) (hs : n ≤ s.stack.length) (v : Word) : Writes i s (s.replaceTop n v) :=
  .stack .none (by simp; omega)

theorem binary_finishes (f : Word → Word → Word) (own : 1 = i.length) : Completes (Finishes i s) (binary f s) :=
  completes_peekTopTwo
    (fun _ _ _ hs => completes_next.2 (.advanced (.replaceTop (by decide) (by simp [hs]) _) own)) fun _ => .raised _

theorem execDiv_finishes : Completes (Finishes .div s) (execDiv s) := by
  refine completes_peekTopTwo (fun v u rest hs => ?_) fun _ => .raised _
  split
  · exact completes_raise.2 (.raised _)
  · exact completes_next.2 (.advanced (.replaceTop (by decide) (by simp [hs]) _) rfl)

theorem execSqrt_finishes : Completes (Finishes .sqrt s) (execSqrt s) := by
  refine completes_peekTop (fun v rest hs => ?_) fun _ => .raised _
  have replaced : ∀ r, Finishes .sqrt s ((s.replaceTop 1 r).advance 1) := fun r =>
    .advanced (.replaceTop (by decide) (by simp [hs]) r) rfl
  split
  · exact completes_next.2 (replaced _)
  · split
    · exact completes_next.2 (replaced _)
    · exact completes_raise.2 (.raised _)

theorem jumpTo_finishes (w1 : Word) : Completes (Finishes i s) (jumpTo w1 s) :=
  completes_withTarget (fun _ hn => completes_next.2 (.transferred .none hn.2)) fun _ => .raised _

theorem callTo_finishes (w1 : Word) : Completes (Finishes i s) (callTo w1 s) :=
  completes_withTarget
    (fun _ hn => completes_pushing
      (fun h => completes_next.2 (.transferred (.stack .none (by simp; omega)) hn.2)) fun _ => .raised _)
    fun _ => .raised _

theorem jumpIf_finishes (c : Cond) (w1 : Word) (own : 5 = i.length) : Completes (Finishes i s) (jumpIf c w1 s) := by
  refine completes_peekTopTwo (fun v u _ _ => ?_) fun _ => .raised _
  split
  · exact jumpTo_finishes w1
  · exact completes_next.2 (.advanced .none own)

theorem execRet_finishes : Completes (Finishes .ret s) (execRet s) :=
  completes_peekTop
    (fun _ _ _ => completes_withTarget
      (fun _ hn => completes_popping
        (fun _ _ hs => completes_next.2 (.transferred (.stack .none (by simp [hs])) hn.2)) fun _ => .raised _)
      fun _ => .raised _)
    fun _ => .raised _

theorem pixelWrite_finishes (d : Int) (allowed : writesFrame i = true) (own : 5 = i.length) :
    Completes (Finishes i s) (pixelWrite d s) :=
  completes_withPixel
    (fun _ hp => completes_next.2 (.advanced (.pixel .none allowed (pixelOf_bounds hp)) own)) fun _ => .raised _

/-- A data index of mode `RAM_REG` or `RAM_REG_IMMED`, computed from a register. -/
theorem withReg_withIndex_finishes {w1 : Word} {index : Fin 4 → Int} {k : Nat → Result}
    (ok : ∀ n, n < dmemWords → Completes (Finishes i s) (k n)) :
    Completes (Finishes i s) (withReg w1 s fun r => withIndex (index r) s k) :=
  completes_withReg (fun _ _ => completes_withIndex (fun n hn => ok n hn.2) fun _ => .raised _) fun _ => .raised _

/-- `in` checks the capacity before it consumes, so its own push finds room (R210, D24). -/
theorem execIn_finishes (h : execIn s = .next t) : Finishes .in_ s t := by
  unfold execIn at h
  split at h
  · obtain ⟨n, rest, -, h⟩ := receiving_next h
    rcases pushing_next h with ⟨room, h⟩ | ⟨full, -⟩
    · cases h
      exact .advanced
        (.stack (.event (.input .none rfl rest) rfl (by simp)) (by simp at room ⊢; omega)) rfl
    · simp at full
      omega
  · obtain rfl := raise_next.1 h
    exact .raised _

end SharedOperations

/-- Every instruction but `in`, which may wait, completes in one of the four ways. -/
theorem exec_completes_finishes {i : Instr} (h : i ≠ .in_) (s : State) : Completes (Finishes i s) (exec i s) := by
  cases i with
  | in_ => exact absurd rfl h
  | nop => exact completes_next.2 (.advanced .none rfl)
  | end_ => exact completes_next.2 (.halted rfl)
  | draw => exact completes_next.2 (.advanced (.event .none rfl fun _ e => (Event.display.inj e).symm) rfl)
  | delayN _ => exact completes_next.2 (.advanced (.event .none rfl (by simp)) rfl)
  | add | sub | mul => exact binary_finishes _ rfl
  | div => exact execDiv_finishes
  | sqrt => exact execSqrt_finishes
  | ret => exact execRet_finishes
  | out =>
    exact completes_peekTop
      (fun _ _ _ => completes_next.2 (.advanced (.event .none rfl (by simp)) rfl)) fun _ => .raised _
  | incR _ =>
    exact completes_withReg (fun r _ => completes_next.2 (.advanced (.reg .none rfl r _) rfl)) fun _ => .raised _
  | popR _ =>
    exact completes_withReg
      (fun r _ => completes_popping
        (fun v _ hs => completes_next.2 (.advanced (.reg (.stack .none (by simp [hs])) rfl r v) rfl)) fun _ => .raised _)
      fun _ => .raised _
  | pixN _ => exact pixelWrite_finishes _ rfl rfl
  | pixR _ => exact completes_withReg (fun _ _ => pixelWrite_finishes _ rfl rfl) fun _ => .raised _
  | pushN _ => exact pushAndAdvance_finishes _ rfl
  | pushR _ => exact completes_withReg (fun _ _ => pushAndAdvance_finishes _ rfl) fun _ => .raised _
  | pushMemK _ => exact completes_withIndex (fun _ _ => pushAndAdvance_finishes _ rfl) fun _ => .raised _
  | pushMemR _ | pushMemRD _ _ => exact withReg_withIndex_finishes fun _ _ => pushAndAdvance_finishes _ rfl
  | popMemK _ => exact completes_withIndex (fun _ hn => popToData_finishes rfl hn.2 rfl) fun _ => .raised _
  | popMemR _ | popMemRD _ _ => exact withReg_withIndex_finishes fun _ hn => popToData_finishes rfl hn rfl
  | callLabel _ | callN _ => exact callTo_finishes _
  | jmpLabel _ | jmpN _ => exact jumpTo_finishes _
  | jaLabel _ | jaN _ | jaeLabel _ | jaeN _ | jbLabel _ | jbN _ | jbeLabel _ | jbeN _ | jeLabel _ | jeN _ | jneLabel _
  | jneN _ => exact jumpIf_finishes _ _ rfl

/-- Everything an instruction that answers a next state has done. -/
theorem exec_finishes {i : Instr} (h : exec i s = .next t) : Finishes i s t := by
  by_cases hi : i = .in_
  · subst hi
    exact execIn_finishes h
  · exact (exec_completes_finishes hi s).of_next h

/-- The writes of an instruction leave the control of the machine alone. -/
theorem Writes.sameControl {i : Instr} (h : Writes i s t) :
    t.pc = s.pc ∧ t.codeLength = s.codeLength ∧ t.halted = s.halted ∧ t.cause = s.cause := by
  induction h with
  | none => exact ⟨rfl, rfl, rfl, rfl⟩
  | stack | reg | data | pixel | event | input => assumption

/-! ### The invariant: each write keeps it -/

theorem Inv.setStack (h : Inv s) {st : List Word} (depth : st.length ≤ s.stackCapacity) : Inv (s.setStack st) :=
  { h with depth_le := depth }

theorem Inv.setReg (h : Inv s) (r : Fin 4) (v : Word) : Inv (s.setReg r v) := { h with }

theorem Inv.writeData (h : Inv s) {n : Nat} (inside : n < dmemWords) (v : Word) : Inv (s.writeData n v) :=
  { h with data_wf := Memory.write_wf h.data_wf inside v }

/-- A colour code written to a cell leaves a framebuffer of colour codes (R36, R213). -/
theorem frameOk.write {fb : List Host.Cell} (h : frameOk fb) {a c : Nat} (inside : a < fbCells) (hc : c ≤ 9) :
    frameOk (Memory.write fb a (BitVec.ofNat 8 c)) := by
  refine ⟨Memory.write_wf h.1 inside _, fun e he => ?_⟩
  rcases Memory.mem_write he with he | ⟨rfl, -⟩
  · exact h.2 e he
  · simp only [BitVec.toNat_ofNat]
    omega

theorem Inv.writePixel (h : Inv s) {p : Pixel} (inside : p.cell < fbCells ∧ p.color ≤ 9) : Inv (s.writePixel p) :=
  { h with frame_ok := h.frame_ok.write inside.1 inside.2 }

/-- A frame that is emitted as it stands joins frames of colour codes (R215). -/
theorem Inv.emit (h : Inv s) {e : Event} (asItStands : ∀ fb, e = .display fb → fb = s.fb) : Inv (s.emit e) where
  __ := h
  frames_ok fb hfb := by
    rcases List.mem_append.1 hfb with old | new
    · exact h.frames_ok fb old
    · rw [asItStands fb (List.mem_singleton.1 new).symm]
      exact h.frame_ok

theorem Inv.setInput (h : Inv s) (rest : InputSource) : Inv (s.setInput rest) := { h with }

/-- A running machine may go to any offset up to the code length (R25). -/
theorem Inv.setPc (h : Inv s) (running : s.halted = false) {n : Nat} (hn : n ≤ s.codeLength) : Inv (s.setPc n) :=
  { h with
    pc_le := hn
    halted_at_end := fun hh => by simp [running] at hh }

/-- A running machine may raise any fault (R231). -/
theorem Inv.setCause (h : Inv s) (running : s.halted = false) (c : Cause) : Inv (s.setCause c) :=
  { h with halted_not_faulted := fun hh => by simp [running] at hh }

/-- A machine that is not faulted may halt at the end of its code (R113, R183). -/
theorem Inv.halt (h : Inv s) (unfaulted : s.cause = none) (atEnd : s.pc = s.codeLength) : Inv s.halt :=
  { h with
    halted_not_faulted := fun _ => unfaulted
    halted_at_end := fun _ => atEnd }

/-- The writes of an instruction keep the invariant. -/
theorem Writes.inv {i : Instr} (h : Writes i s t) (hs : Inv s) : Inv t := by
  induction h with
  | none => exact hs
  | stack _ depth ih => exact ih.setStack (depth.trans (max_le ih.depth_le le_rfl))
  | reg _ _ r v ih => exact ih.setReg r v
  | data _ _ inside v ih => exact ih.writeData inside v
  | pixel _ _ inside ih => exact ih.writePixel inside
  | event _ _ asItStands ih => exact ih.emit asItStands
  | input _ _ rest ih => exact ih.setInput rest

/-- An instruction that lies inside the code of a running machine keeps the invariant. -/
theorem Finishes.inv {i : Instr} (h : Finishes i s t) (hs : Inv s) (running : s.halted = false)
    (unfaulted : s.cause = none) (fits : s.pc + i.length ≤ s.codeLength) : Inv t := by
  cases h with
  | raised c => exact hs.setCause running c
  | advanced writes own =>
    obtain ⟨hpc, hlen, hhalted, -⟩ := writes.sameControl
    exact (writes.inv hs).setPc (hhalted.trans running) (by omega)
  | transferred writes inside =>
    obtain ⟨-, hlen, hhalted, -⟩ := writes.sameControl
    exact (writes.inv hs).setPc (hhalted.trans running) (by omega)
  | halted => exact (hs.setPc running le_rfl).halt unfaulted rfl

/-! ### The invariant: the step -/

/-- The instruction of an opcode has the length of the opcode's row (R90, R104). -/
theorem instrOf_length {op : Nat} {row : OpcodeRow} {w1 w2 : Word} {i : Instr} (hrow : decodeOpcode op = some row)
    (hi : instrOf op w1 w2 = some i) : i.length = row.mode.length := by
  have table : ∀ r ∈ opcodeMap, (instrOf r.opcode w1 w2).map Instr.length = some r.mode.length :=
    List.map_inj_left.1 rfl
  have hop : row.opcode = op := by simpa using List.find?_some hrow
  simpa [hop, hi] using table row (List.mem_of_find?_eq_some hrow)

/-- The whole of an instruction that is fetched lies in the code (R111). -/
theorem fetch_fits {i : Instr} {len : Nat} (h : fetch s = .instr i len) (hpc : s.pc ≤ s.codeLength) :
    s.pc + i.length ≤ s.codeLength := by
  have decoded : i.length ≤ (s.code.drop s.pc).length := by
    unfold fetch decode at h
    split at h
    · cases h
    · split at h
      · cases h
      · rename_i row hrow
        split at h
        · cases h
        · split at h
          · cases h
          · rename_i fits _ _ hi
            cases h
            rw [instrOf_length hrow hi]
            omega
  rw [List.length_drop] at decoded
  simp only [State.codeLength] at hpc ⊢
  omega

/-- The fetch finds no byte only at the end of the code or behind it (R113). -/
theorem fetch_endOfCode (h : fetch s = .endOfCode) : s.codeLength ≤ s.pc := by
  unfold fetch decode at h
  split at h
  · rename_i noByte
    have bytes := takeLE_isSome 1 (s.code.drop s.pc)
    rw [memRead, List.drop_zero] at noByte
    simpa [noByte, Nat.sub_eq_zero_iff_le, State.codeLength] using bytes
  · split at h
    · cases h
    · split at h
      · cases h
      · split at h <;> cases h

/-- Everything a step that answers a next state does: the machine ran, and it is the normal halt of R113, a fetch fault (R111)
or the instruction at `pc` (R110). -/
theorem step_next (h : step s = .next t) :
    s.halted = false ∧ s.cause = none
      ∧ ((s.codeLength ≤ s.pc ∧ t = s.halt) ∨ (∃ c, t = s.setCause c)
        ∨ ∃ i len, fetch s = .instr i len ∧ exec i s = .next t) := by
  unfold step at h
  split at h
  · cases h
  · rename_i running
    refine ⟨by simpa using running, ?_⟩
    split at h
    · cases h
    · rename_i unfaulted
      refine ⟨unfaulted, ?_⟩
      split at h
      · cases h
        exact .inl ⟨‹_›, rfl⟩
      · unfold dispatch at h
        split at h
        · exact .inr (.inr ⟨_, _, ‹_›, h⟩)
        · exact .inr (.inl ⟨_, raise_next.1 h⟩)
        · exact .inr (.inl ⟨_, raise_next.1 h⟩)
        · cases h
          exact .inl ⟨fetch_endOfCode ‹_›, rfl⟩

/-- Settles O46: the normal halt is at the end of the code, a fetch fault stops a running machine, and an instruction that was
fetched lies inside the code, where each of its writes and its way to finish keeps the invariant. -/
theorem everyStepKeepsTheInvariant : Obligations.EveryStepKeepsTheInvariant := by
  intro s t hs h
  obtain ⟨running, unfaulted, ⟨atEnd, rfl⟩ | ⟨c, rfl⟩ | ⟨i, len, fetched, h⟩⟩ := step_next h
  · exact hs.halt unfaulted (le_antisymm hs.pc_le atEnd)
  · exact hs.setCause running c
  · exact (exec_finishes h).inv hs running unfaulted (fetch_fits fetched hs.pc_le)

/-! ### Registers: who writes one (R23) -/

/-- An instruction outside R23's writers leaves the registers alone with each of its writes. -/
theorem Writes.sameRegs {i : Instr} (h : Writes i s t) (hi : writesRegister i = false) : t.x = s.x := by
  induction h with
  | none => rfl
  | reg _ allowed => simp [hi] at allowed
  | stack | data | pixel | event | input => assumption

/-- However it finishes, it leaves the registers alone. -/
theorem Finishes.sameRegs {i : Instr} (h : Finishes i s t) (hi : writesRegister i = false) : t.x = s.x := by
  cases h with
  | raised | halted => rfl
  | advanced writes | transferred writes => exact writes.sameRegs hi

/-! ### Two runs side by side -/

/-- Two outcomes match: next states in the relation `R`, or the same stop. -/
inductive Matches (R : State → State → Prop) : Result → Result → Prop where
  | next {t' t : State} (related : R t' t) : Matches R (.next t') (.next t)
  | fault (r : Fault) : Matches R (.fault r) (.fault r)
  | refused (r : Refusal) : Matches R (.refused r) (.refused r)

section Matching

variable {R : State → State → Prop}

/-- Matching outcomes are equal once what tells related states apart is written over. -/
theorem Matches.mapNext_eq {r' r : Result} (h : Matches R r' r) {f : State → State} (hf : ∀ t' t, R t' t → f t' = f t) :
    mapNext f r' = mapNext f r := by
  cases h with
  | next related => exact congrArg Host.Outcome.next (hf _ _ related)
  | fault | refused => rfl

theorem matches_pushing {v : Word} {k' k : State → Result} (sameStack : s'.stack = s.stack)
    (sameCapacity : s'.stackCapacity = s.stackCapacity)
    (ok : Matches R (k' (s'.setStack (v :: s.stack))) (k (s.setStack (v :: s.stack))))
    (full : R (s'.setCause .stackOverflow) (s.setCause .stackOverflow)) :
    Matches R (pushing v s' k') (pushing v s k) := by
  rcases Nat.lt_or_ge s.stack.length s.stackCapacity with h | h
  · rw [pushing_ok h, pushing_ok (by rwa [sameStack, sameCapacity]), sameStack]
    exact ok
  · rw [pushing_raises h, pushing_raises (by rwa [sameStack, sameCapacity])]
    exact .next full

theorem matches_popping {k' k : Word → State → Result} (sameStack : s'.stack = s.stack)
    (ok : ∀ v rest, Matches R (k' v (s'.setStack rest)) (k v (s.setStack rest)))
    (empty : R (s'.setCause .stackUnderflow) (s.setCause .stackUnderflow)) :
    Matches R (popping s' k') (popping s k) := by
  cases h : s.stack with
  | nil =>
    rw [popping_raises h, popping_raises (sameStack.trans h)]
    exact .next empty
  | cons v rest =>
    rw [popping_ok h, popping_ok (sameStack.trans h)]
    exact ok v rest

theorem matches_peekTop {k' k : Word → Result} (sameStack : s'.stack = s.stack) (ok : ∀ v, Matches R (k' v) (k v))
    (empty : R (s'.setCause .stackUnderflow) (s.setCause .stackUnderflow)) :
    Matches R (peekTop s' k') (peekTop s k) := by
  cases h : s.stack with
  | nil =>
    rw [peekTop_raises h, peekTop_raises (sameStack.trans h)]
    exact .next empty
  | cons v rest =>
    rw [peekTop_ok h, peekTop_ok (sameStack.trans h)]
    exact ok v

theorem matches_peekTopTwo {k' k : Word → Word → Result} (sameStack : s'.stack = s.stack)
    (ok : ∀ v u, Matches R (k' v u) (k v u))
    (short : R (s'.setCause .stackUnderflow) (s.setCause .stackUnderflow)) :
    Matches R (peekTopTwo s' k') (peekTopTwo s k) := by
  match h : s.stack with
  | [] | [_] =>
    rw [peekTopTwo_raises (s := s) (by simp [h]), peekTopTwo_raises (s := s') (by simp [sameStack, h])]
    exact .next short
  | v :: u :: rest =>
    rw [peekTopTwo_ok h, peekTopTwo_ok (sameStack.trans h)]
    exact ok v u

theorem matches_withReg {w : Word} {k' k : Fin 4 → Result} (ok : ∀ r, Matches R (k' r) (k r))
    (bad : R (s'.setCause .invalidRegister) (s.setCause .invalidRegister)) :
    Matches R (withReg w s' k') (withReg w s k) := by
  unfold withReg
  split
  · exact .next bad
  · exact ok _

theorem matches_withIndex {i : Int} {k' k : Nat → Result} (ok : ∀ n, Matches R (k' n) (k n))
    (bad : R (s'.setCause .memoryOutOfBounds) (s.setCause .memoryOutOfBounds)) :
    Matches R (withIndex i s' k') (withIndex i s k) := by
  unfold withIndex
  split
  · exact .next bad
  · exact ok _

theorem matches_withPixel {d : Int} {k' k : Pixel → Result} (ok : ∀ p, Matches R (k' p) (k p))
    (bad : R (s'.setCause .pixelOutOfBounds) (s.setCause .pixelOutOfBounds)) :
    Matches R (withPixel d s' k') (withPixel d s k) := by
  unfold withPixel
  split
  · exact .next bad
  · exact ok _

theorem matches_withTarget {tgt : Int} {k' k : Nat → Result} (sameLength : s'.codeLength = s.codeLength)
    (ok : ∀ n, Matches R (k' n) (k n))
    (bad : R (s'.setCause .controlTransferOutOfBounds) (s.setCause .controlTransferOutOfBounds)) :
    Matches R (withTarget tgt s' k') (withTarget tgt s k) := by
  unfold withTarget
  rw [sameLength]
  split
  · exact .next bad
  · exact ok _

theorem matches_receiving {k' k : Word → State → Result} (sameInput : s'.input = s.input)
    (ok : ∀ n rest, Matches R (k' n ((s'.setInput rest).emit (.input n))) (k n ((s.setInput rest).emit (.input n)))) :
    Matches R (receiving s' k') (receiving s k) := by
  unfold receiving
  rw [sameInput]
  split
  · exact .fault _
  · exact ok _ _

end Matching

/-! ### Registers: who depends on one (R23) -/

/-- The state with other registers. -/
def State.withRegs (s : State) (y : Vector Word 4) : State := { s with x := y }

/-- `t'` is `t` but for the registers. -/
def SameButRegs (t' t : State) : Prop := t'.withRegs t.x = t

/-- States that differ in the registers only are one state once the registers are written over. -/
theorem SameButRegs.withRegs_eq (h : SameButRegs s' s) (z : Vector Word 4) : s'.withRegs z = s.withRegs z := by
  rw [← h]
  rfl

section OtherRegisters

variable {y : Vector Word 4}

theorem pushAndAdvance_sameButRegs (v : Word) (len : Nat) :
    Matches SameButRegs (pushAndAdvance v len (s.withRegs y)) (pushAndAdvance v len s) :=
  matches_pushing rfl rfl (.next rfl) rfl

theorem binary_sameButRegs (f : Word → Word → Word) :
    Matches SameButRegs (binary f (s.withRegs y)) (binary f s) :=
  matches_peekTopTwo rfl (fun _ _ => .next rfl) rfl

theorem execDiv_sameButRegs : Matches SameButRegs (execDiv (s.withRegs y)) (execDiv s) := by
  refine matches_peekTopTwo rfl (fun v u => ?_) rfl
  split <;> exact .next rfl

/-- SQRT_NEG depends on the operand alone (R165). -/
theorem execSqrt_sameButRegs : Matches SameButRegs (execSqrt (s.withRegs y)) (execSqrt s) := by
  refine matches_peekTop rfl (fun v => ?_) rfl
  split
  · exact .next rfl
  · split <;> exact .next rfl

theorem jumpTo_sameButRegs (w1 : Word) : Matches SameButRegs (jumpTo w1 (s.withRegs y)) (jumpTo w1 s) :=
  matches_withTarget rfl (fun _ => .next rfl) rfl

theorem callTo_sameButRegs (w1 : Word) : Matches SameButRegs (callTo w1 (s.withRegs y)) (callTo w1 s) :=
  matches_withTarget rfl (fun _ => matches_pushing rfl rfl (.next rfl) rfl) rfl

theorem jumpIf_sameButRegs (c : Cond) (w1 : Word) :
    Matches SameButRegs (jumpIf c w1 (s.withRegs y)) (jumpIf c w1 s) := by
  refine matches_peekTopTwo rfl (fun v u => ?_) rfl
  split
  · exact jumpTo_sameButRegs w1
  · exact .next rfl

theorem execRet_sameButRegs : Matches SameButRegs (execRet (s.withRegs y)) (execRet s) :=
  matches_peekTop rfl
    (fun _ => matches_withTarget rfl (fun _ => matches_popping rfl (fun _ _ => .next rfl) rfl) rfl) rfl

theorem execIn_sameButRegs : Matches SameButRegs (execIn (s.withRegs y)) (execIn s) := by
  by_cases room : s.stack.length < s.stackCapacity
  · have room' : (s.withRegs y).stack.length < (s.withRegs y).stackCapacity := room
    rw [execIn, execIn, if_pos room, if_pos room']
    exact matches_receiving rfl fun _ _ => matches_pushing rfl rfl (.next rfl) rfl
  · have full' : ¬ (s.withRegs y).stack.length < (s.withRegs y).stackCapacity := room
    rw [execIn, execIn, if_neg room, if_neg full']
    exact .next rfl

/-- An instruction outside R23's readers matches itself on other registers. `pop r` writes one without reading any. -/
theorem exec_sameButRegs {i : Instr} (h : readsRegister i = false) (s : State) (y : Vector Word 4) :
    Matches SameButRegs (exec i (s.withRegs y)) (exec i s) := by
  cases i with
  | pushR _ | pushMemR _ | pushMemRD _ _ | popMemR _ | popMemRD _ _ | incR _ | pixR _ => cases h
  | nop | end_ | draw | delayN _ => exact .next rfl
  | add | sub | mul => exact binary_sameButRegs _
  | div => exact execDiv_sameButRegs
  | sqrt => exact execSqrt_sameButRegs
  | ret => exact execRet_sameButRegs
  | in_ => exact execIn_sameButRegs
  | out => exact matches_peekTop rfl (fun _ => .next rfl) rfl
  | popR _ => exact matches_withReg (fun _ => matches_popping rfl (fun _ _ => .next rfl) rfl) rfl
  | pixN _ => exact matches_withPixel (fun _ => .next rfl) rfl
  | pushN _ => exact pushAndAdvance_sameButRegs _ _
  | pushMemK _ => exact matches_withIndex (fun _ => pushAndAdvance_sameButRegs _ _) rfl
  | popMemK _ => exact matches_withIndex (fun _ => matches_popping rfl (fun _ _ => .next rfl) rfl) rfl
  | callLabel _ | callN _ => exact callTo_sameButRegs _
  | jmpLabel _ | jmpN _ => exact jumpTo_sameButRegs _
  | jaLabel _ | jaN _ | jaeLabel _ | jaeN _ | jbLabel _ | jbN _ | jbeLabel _ | jbeN _ | jeLabel _ | jeN _ | jneLabel _
  | jneN _ => exact jumpIf_sameButRegs _ _

end OtherRegisters

/-- Settles O51: the registers are outside the footprint of every instruction but R23's writers, and an instruction outside
R23's readers matches itself on other registers. -/
theorem onlyTheNamedInstructionsTouchRegisters : Obligations.OnlyTheNamedInstructionsTouchRegisters :=
  ⟨fun _ _ _ hi h => (exec_finishes h).sameRegs hi,
    fun _ s y z hi => (exec_sameButRegs hi s y).mapNext_eq fun _ _ h => h.withRegs_eq z⟩

end Sys2Proof.Machine
end

section
/-! Proofs for 20_memory.md. First MemRead as a little-endian sum. Then the frame of an instruction and of a step, from the
inversions `exec_finishes` and `step_next` of 10_state.md; the port log of a step; and last `exec_image`, that an instruction
commutes with a change of the state that it does not see, as other data memory is to one without a memory operand, and other
code of the same length to every one. -/

namespace Sys2Proof

/-! ### MemRead and operand words (R61, R62) -/

/-- The bytes that are read make one little-endian number (D2). -/
theorem takeLE_eq_sum {n : Nat} {bytes : List Byte} (h : n ≤ bytes.length) :
    takeLE n bytes = some (∑ k ∈ Finset.range n, 256 ^ k * (bytes.getD k 0).toNat) := by
  induction n generalizing bytes with
  | zero => rfl
  | succ n ih =>
    cases bytes with
    | nil => simp at h
    | cons b bytes =>
      rw [takeLE, ih (by simpa using h), Finset.sum_range_succ']
      simp [pow_succ', mul_assoc, Finset.mul_sum, Nat.add_comm]

/-- Settles O2: inside the code the read is `takeLE_eq_sum` from `addr` on; past its end a byte is missing. -/
theorem memReadIsLittleEndian : Obligations.MemReadIsLittleEndian := by
  refine fun code addr n => ⟨fun inside => ?_, fun positive past => ?_⟩
  · rw [memRead, takeLE_eq_sum (by rw [List.length_drop]; omega)]
    simp
  · have missing : ¬ n ≤ (code.drop addr).length := by rw [List.length_drop]; omega
    rw [memRead, ← Option.isNone_iff_eq_none, ← Option.not_isSome, takeLE_isSome, decide_eq_false missing]
    rfl

/-- The four bytes stored for a word make its value. -/
theorem takeLE_wordBytes (w : Word) : takeLE 4 (wordBytes w) = some w.toNat := by
  have hw := w.isLt
  simp only [wordBytes, takeLE, Option.map_some, BitVec.extractLsb'_toNat, Nat.shiftRight_eq_div_pow]
  congr 1
  omega

/-- Settles O3: the read at the word's offset skips what stands before it and stops before what stands behind it. -/
theorem operandWordsReadBack : Obligations.OperandWordsReadBack := by
  refine fun w before rest => ⟨rfl, ?_⟩
  have read : memRead (before ++ wordBytes w ++ rest) before.length 4 = some w.toNat := by
    rw [memRead, List.append_assoc, List.drop_left, takeLE_append (by simp), takeLE_wordBytes]
  rw [operandWord, read]
  simp

end Sys2Proof

namespace Sys2Proof.Machine

variable {s t : State} {i : Instr}

/-! ### The frame of an instruction -/

/-- `t` has of `s` what the instruction may not write (R29, R35, R36, R60, R63, R71). -/
structure Keeps (i : Instr) (s t : State) : Prop where
  data : writesData i = false → t.dm = s.dm
  frame : writesFrame i = false → t.fb = s.fb
  halted : i ≠ .end_ → t.halted = s.halted
  events : usesPort i = false → t.events = s.events
  input : i ≠ .in_ → t.input = s.input
  code : t.code = s.code
  capacity : t.stackCapacity = s.stackCapacity

theorem Keeps.refl (i : Instr) (s : State) : Keeps i s s := by constructor <;> intros <;> rfl

/-- Each write is of a part that the instruction is allowed, and leaves the other parts alone. -/
theorem Writes.keeps (h : Writes i s t) : Keeps i s t := by
  induction h with
  | none => exact .refl i s
  | stack _ _ ih | reg _ _ _ _ ih => exact { ih with }
  | data _ allowed _ _ ih => exact { ih with data := fun forbidden => by simp [forbidden] at allowed }
  | pixel _ allowed _ ih => exact { ih with frame := fun forbidden => by simp [forbidden] at allowed }
  | event _ allowed _ ih => exact { ih with events := fun forbidden => by simp [forbidden] at allowed }
  | input _ allowed _ ih => exact { ih with input := fun forbidden => absurd allowed forbidden }

/-- To finish moves `pc` or writes the status; only `end` halts. -/
theorem Finishes.keeps (h : Finishes i s t) : Keeps i s t := by
  cases h with
  | raised => exact { Keeps.refl i s with }
  | advanced writes | transferred writes => exact { writes.keeps with }
  | halted isEnd => exact { Keeps.refl i s with halted := fun forbidden => absurd isEnd forbidden }

/-- Settles O52: it is the frame of the instruction but for the code and the capacity. -/
theorem onlyTheNamedInstructionsWrite : Obligations.OnlyTheNamedInstructionsWrite := by
  intro i s t h
  have kept := (exec_finishes h).keeps
  exact ⟨kept.data, kept.frame, kept.halted, kept.events, kept.input⟩

/-- Settles O50: neither an instruction nor a halt nor a fault of the fetch writes them. -/
theorem codeIsReadOnly : Obligations.CodeIsReadOnly := by
  intro s t h
  obtain ⟨-, -, ⟨-, rfl⟩ | ⟨c, rfl⟩ | ⟨i, len, -, h⟩⟩ := step_next h
  · exact ⟨rfl, rfl⟩
  · exact ⟨rfl, rfl⟩
  · have kept := (exec_finishes h).keeps
    exact ⟨kept.code, kept.capacity⟩

/-! ### The port log (R73) -/

/-- The port transactions from `s` to `t`: none, one that consumes no input, or the receipt of the first value to come. -/
inductive OneEvent (s t : State) : Prop where
  | silent (events : t.events = s.events) (input : t.input = s.input)
  | emitted {e : Event} (output : ∀ n, e ≠ .input n) (events : t.events = s.events ++ [e]) (input : t.input = s.input)
  | received {n : Word} (events : t.events = s.events ++ [.input n]) (presented : s.input.present = some (n, t.input))

/-- `in` receives at most one value; what the push behind it does shows in no port. -/
theorem execIn_oneEvent (h : execIn s = .next t) : OneEvent s t := by
  unfold execIn at h
  split at h
  · obtain ⟨n, rest, presented, h⟩ := receiving_next h
    rcases pushing_next h with ⟨-, h⟩ | ⟨-, rfl⟩
    · cases h
      exact .received rfl presented
    · exact .received rfl presented
  · obtain rfl := raise_next.1 h
    exact .silent rfl rfl

/-- The four instructions of R71 have one transaction, or a fault and none; every other instruction has none. -/
theorem exec_oneEvent (h : exec i s = .next t) : OneEvent s t := by
  cases ports : usesPort i with
  | false =>
    have kept := (exec_finishes h).keeps
    exact .silent (kept.events ports) (kept.input (by rintro rfl; cases ports))
  | true =>
    cases i with
    | in_ => exact execIn_oneEvent h
    | out =>
      rcases peekTop_next h with ⟨v, rest, -, h⟩ | ⟨-, rfl⟩
      · cases h
        exact .emitted (by simp) rfl rfl
      · exact .silent rfl rfl
    | draw | delayN _ =>
      cases h
      exact .emitted (by simp) rfl rfl
    | _ => cases ports

/-- Settles O54: a step is silent where it fetches no instruction. -/
theorem portEventsHappenInOrder : Obligations.PortEventsHappenInOrder := by
  intro s t h
  have one : OneEvent s t := by
    obtain ⟨-, -, ⟨-, rfl⟩ | ⟨c, rfl⟩ | ⟨i, len, -, h⟩⟩ := step_next h
    · exact .silent rfl rfl
    · exact .silent rfl rfl
    · exact exec_oneEvent h
  cases one with
  | silent events input => exact .inl ⟨events, input⟩
  | emitted output events input => exact .inr (.inl ⟨_, output, events, input⟩)
  | received events presented => exact .inr (.inr ⟨_, events, presented⟩)

/-! ### Changes that an instruction does not see (R60) -/

/-- `f` changes nothing that an instruction reads outside data memory and the code length, and it does not matter whether a
write outside data memory comes before it or after it. -/
structure Unseen (f : State → State) : Prop where
  reg : ∀ s r, (f s).reg r = s.reg r
  pc : ∀ s, (f s).pc = s.pc
  stack : ∀ s, (f s).stack = s.stack
  capacity : ∀ s, (f s).stackCapacity = s.stackCapacity
  fb : ∀ s, (f s).fb = s.fb
  input : ∀ s, (f s).input = s.input
  setReg : ∀ s r v, (f s).setReg r v = f (s.setReg r v)
  setPc : ∀ s n, (f s).setPc n = f (s.setPc n)
  setStack : ∀ s st, (f s).setStack st = f (s.setStack st)
  writePixel : ∀ s p, (f s).writePixel p = f (s.writePixel p)
  emit : ∀ s e, (f s).emit e = f (s.emit e)
  setInput : ∀ s rest, (f s).setInput rest = f (s.setInput rest)
  halt : ∀ s, (f s).halt = f s.halt
  setCause : ∀ s c, (f s).setCause c = f (s.setCause c)

/-- The instructions with a memory operand (R60). -/
def touchesData (i : Instr) : Bool :=
  match i with
  | .pushMemK _ | .pushMemR _ | .pushMemRD _ _ => true
  | i => writesData i

/-- `f` changes no data word and may come before or after a write to one. -/
structure UnseenInData (f : State → State) : Prop where
  readData : ∀ s n, (f s).readData n = s.readData n
  writeData : ∀ s n v, (f s).writeData n v = f (s.writeData n v)

/-- `t'` is the state that `f` makes of `t`. -/
def Image (f : State → State) (t' t : State) : Prop := t' = f t

theorem Matches.eq_mapNext {f : State → State} {r' r : Result} (h : Matches (Image f) r' r) : r' = mapNext f r := by
  cases h with
  | next related => exact congrArg Host.Outcome.next related
  | fault | refused => rfl

section Commuting

variable {f : State → State} (hf : Unseen f)
include hf

theorem Unseen.advance (s : State) (n : Nat) : (f s).advance n = f (s.advance n) := by
  rw [State.advance, hf.pc, hf.setPc, State.advance]

theorem Unseen.transfer (s : State) (n : Nat) : (f s).transfer n = f (s.transfer n) := hf.setPc s n

theorem Unseen.replaceTop (s : State) (n : Nat) (v : Word) : (f s).replaceTop n v = f (s.replaceTop n v) := by
  rw [State.replaceTop, hf.stack, hf.setStack, State.replaceTop]

theorem Unseen.link (s : State) : (f s).link = s.link := by
  rw [State.link, hf.pc, State.link]

theorem replaceTop_advance_image (n : Nat) (v : Word) (len : Nat) :
    Image f (((f s).replaceTop n v).advance len) ((s.replaceTop n v).advance len) := by
  rw [Image, hf.replaceTop, hf.advance]

theorem pushAndAdvance_image (v : Word) (len : Nat) :
    Matches (Image f) (pushAndAdvance v len (f s)) (pushAndAdvance v len s) :=
  matches_pushing (hf.stack s) (hf.capacity s) (.next (by rw [Image, hf.setStack, hf.advance])) (hf.setCause s _)

theorem pushData_image (hd : UnseenInData f) (len n : Nat) :
    Matches (Image f) (pushAndAdvance ((f s).readData n) len (f s)) (pushAndAdvance (s.readData n) len s) := by
  rw [hd.readData]
  exact pushAndAdvance_image hf _ len

theorem popToData_image (hd : UnseenInData f) (n len : Nat) :
    Matches (Image f) (popToData n len (f s)) (popToData n len s) :=
  matches_popping (hf.stack s) (fun _ _ => .next (by rw [Image, hf.setStack, hd.writeData, hf.advance])) (hf.setCause s _)

theorem pixelWrite_image (d : Int) : Matches (Image f) (pixelWrite d (f s)) (pixelWrite d s) :=
  matches_withPixel (fun _ => .next (by rw [Image, hf.writePixel, hf.advance])) (hf.setCause s _)

theorem binary_image (g : Word → Word → Word) : Matches (Image f) (binary g (f s)) (binary g s) :=
  matches_peekTopTwo (hf.stack s) (fun _ _ => .next (replaceTop_advance_image hf _ _ _)) (hf.setCause s _)

theorem execDiv_image : Matches (Image f) (execDiv (f s)) (execDiv s) := by
  refine matches_peekTopTwo (hf.stack s) (fun v u => ?_) (hf.setCause s _)
  split
  · exact .next (hf.setCause s _)
  · exact .next (replaceTop_advance_image hf _ _ _)

/-- SQRT_NEG depends on the operand alone (R165). -/
theorem execSqrt_image : Matches (Image f) (execSqrt (f s)) (execSqrt s) := by
  refine matches_peekTop (hf.stack s) (fun v => ?_) (hf.setCause s _)
  split
  · exact .next (replaceTop_advance_image hf _ _ _)
  · split
    · exact .next (replaceTop_advance_image hf _ _ _)
    · exact .next (hf.setCause s _)

theorem execIn_image : Matches (Image f) (execIn (f s)) (execIn s) := by
  unfold execIn
  rw [hf.stack, hf.capacity]
  split
  · refine matches_receiving (hf.input s) fun n rest => ?_
    rw [hf.setInput, hf.emit]
    exact matches_pushing (hf.stack _) (hf.capacity _) (.next (by rw [Image, hf.setStack, hf.advance])) (hf.setCause _ _)
  · exact .next (hf.setCause s _)

theorem withIndex_image {index : Int} {k' k : Nat → Result} (ok : ∀ n, Matches (Image f) (k' n) (k n)) :
    Matches (Image f) (withIndex index (f s) k') (withIndex index s k) :=
  matches_withIndex ok (hf.setCause s _)

theorem withRamReg_image {w1 : Word} {k' k : Nat → Result} (ok : ∀ n, Matches (Image f) (k' n) (k n)) :
    Matches (Image f) (withRamReg w1 (f s) k') (withRamReg w1 s k) :=
  matches_withReg (fun r => by rw [ramRegIndex, hf.reg]; exact withIndex_image hf ok) (hf.setCause s _)

theorem withRamRegImmed_image {w1 w2 : Word} {k' k : Nat → Result} (ok : ∀ n, Matches (Image f) (k' n) (k n)) :
    Matches (Image f) (withRamRegImmed w1 w2 (f s) k') (withRamRegImmed w1 w2 s k) :=
  matches_withReg (fun r => by rw [ramRegImmedIndex, hf.reg]; exact withIndex_image hf ok) (hf.setCause s _)

section SameLength

variable (sameLength : (f s).codeLength = s.codeLength)
include sameLength

theorem jumpTo_image (w1 : Word) : Matches (Image f) (jumpTo w1 (f s)) (jumpTo w1 s) :=
  matches_withTarget sameLength (fun n => .next (hf.transfer s n)) (hf.setCause s _)

theorem callTo_image (w1 : Word) : Matches (Image f) (callTo w1 (f s)) (callTo w1 s) := by
  refine matches_withTarget sameLength (fun n => ?_) (hf.setCause s _)
  rw [hf.link]
  exact matches_pushing (hf.stack s) (hf.capacity s) (.next (by rw [Image, hf.setStack, hf.transfer])) (hf.setCause s _)

theorem jumpIf_image (c : Cond) (w1 : Word) : Matches (Image f) (jumpIf c w1 (f s)) (jumpIf c w1 s) := by
  refine matches_peekTopTwo (hf.stack s) (fun v u => ?_) (hf.setCause s _)
  split
  · exact jumpTo_image hf sameLength w1
  · exact .next (hf.advance s 5)

theorem execRet_image : Matches (Image f) (execRet (f s)) (execRet s) :=
  matches_peekTop (hf.stack s)
    (fun _ => matches_withTarget sameLength
      (fun _ => matches_popping (hf.stack s) (fun _ _ => .next (by rw [Image, hf.setStack, hf.transfer])) (hf.setCause s _))
      (hf.setCause s _))
    (hf.setCause s _)

/-- An instruction does the same to what `f` makes of a state as to the state, where `f` is unseen by it. -/
theorem exec_image (data : touchesData i = true → UnseenInData f) : Matches (Image f) (exec i (f s)) (exec i s) := by
  cases i with
  | nop => exact .next (hf.advance s 1)
  | end_ => exact .next (by rw [Image, hf.halt, hf.transfer, sameLength])
  | add | sub | mul => exact binary_image hf _
  | div => exact execDiv_image hf
  | sqrt => exact execSqrt_image hf
  | ret => exact execRet_image hf sameLength
  | in_ => exact execIn_image hf
  | out => exact matches_peekTop (hf.stack s) (fun _ => .next (by rw [Image, hf.emit, hf.advance])) (hf.setCause s _)
  | draw => exact .next (by rw [Image, hf.fb, hf.emit, hf.advance])
  | delayN _ => exact .next (by rw [Image, hf.emit, hf.advance])
  | incR _ =>
    exact matches_withReg (fun r => .next (by rw [Image, hf.reg, hf.setReg, hf.advance])) (hf.setCause s _)
  | popR _ =>
    exact matches_withReg
      (fun r => matches_popping (hf.stack s) (fun _ _ => .next (by rw [Image, hf.setStack, hf.setReg, hf.advance]))
        (hf.setCause s _))
      (hf.setCause s _)
  | pixN _ => exact pixelWrite_image hf _
  | pixR _ => exact matches_withReg (fun r => by rw [hf.reg]; exact pixelWrite_image hf _) (hf.setCause s _)
  | pushN _ => exact pushAndAdvance_image hf _ _
  | pushR _ => exact matches_withReg (fun r => by rw [hf.reg]; exact pushAndAdvance_image hf _ _) (hf.setCause s _)
  | pushMemK _ => exact withIndex_image hf (pushData_image hf (data rfl) 5)
  | pushMemR _ => exact withRamReg_image hf (pushData_image hf (data rfl) 5)
  | pushMemRD _ _ => exact withRamRegImmed_image hf (pushData_image hf (data rfl) 9)
  | popMemK _ => exact withIndex_image hf fun _ => popToData_image hf (data rfl) _ _
  | popMemR _ => exact withRamReg_image hf fun _ => popToData_image hf (data rfl) _ _
  | popMemRD _ _ => exact withRamRegImmed_image hf fun _ => popToData_image hf (data rfl) _ _
  | callLabel _ | callN _ => exact callTo_image hf sameLength _
  | jmpLabel _ | jmpN _ => exact jumpTo_image hf sameLength _
  | jaLabel _ | jaN _ | jaeLabel _ | jaeN _ | jbLabel _ | jbN _ | jbeLabel _ | jbeN _ | jeLabel _ | jeN _ | jneLabel _
  | jneN _ => exact jumpIf_image hf sameLength _ _

end SameLength

end Commuting

/-- The state with other data memory. -/
def State.withData (m : List (Nat × Word)) (s : State) : State := { s with dm := m }

/-- Outside the memory forms, other data memory is unseen (R60). -/
theorem withData_unseen (m : List (Nat × Word)) : Unseen (State.withData m) := by
  constructor <;> intros <;> rfl

/-- Settles O53: other data memory is unseen, and the instruction touches none. -/
theorem onlyMemoryFormsSeeDataMemory : Obligations.OnlyMemoryFormsSeeDataMemory := by
  intro i s m notK notR notRD noWrite
  have noData : touchesData i = false := by
    unfold touchesData
    split
    · exact absurd rfl (notK _)
    · exact absurd rfl (notR _)
    · exact absurd rfl (notRD _ _)
    · exact noWrite
  exact (exec_image (withData_unseen m) rfl (by simp [noData])).eq_mapNext

/-- The state with other code. -/
def State.withCode (other : List Byte) (s : State) : State := { s with code := other }

theorem withCode_unseen (other : List Byte) : Unseen (State.withCode other) := by
  constructor <;> intros <;> rfl

theorem withCode_unseenInData (other : List Byte) : UnseenInData (State.withCode other) := by
  constructor <;> intros <;> rfl

/-- Only the fetch reads code memory: the instruction that was fetched sees no more of it than its length (R60, R181). -/
theorem exec_withCode {other : List Byte} (sameLength : other.length = s.code.length) (i : Instr) :
    exec i (s.withCode other) = mapNext (State.withCode other) (exec i s) :=
  (exec_image (withCode_unseen other) sameLength fun _ => withCode_unseenInData other).eq_mapNext

end Sys2Proof.Machine
end

section
/-! Proofs for 30_encoding.md. First the codec: the table facts that tie decoder and encoder to the opcode map, and
`decode_eq_instr_iff`, that bytes decode to an instruction exactly where they begin with its encoding. From it the fetch
and what a step sees of the code. Then the faults of illegal operand words, with the calculus of 00_scope.md. Last the
two passes of the assembler, which count the same sizes, and from the codec that what it emits decodes. -/

namespace Sys2Proof

variable {bytes : List Byte} {i : Instr} {len op : Nat} {row : OpcodeRow} {w1 w2 : Word}

/-! ### The opcode map as one table (R100, R104) -/

/-- A row that decodes an opcode is the row of that opcode. -/
theorem decodeOpcode_opcode (h : decodeOpcode op = some row) : row.opcode = op := by
  simpa using List.find?_some h

/-- No two rows share an opcode. -/
theorem decodeOpcode_of_mem (h : row ∈ opcodeMap) : decodeOpcode row.opcode = some row := by
  have table : ∀ r ∈ opcodeMap, decodeOpcode r.opcode = some r := by decide
  exact table row h

/-- The unassigned opcodes (R102). -/
theorem decodeOpcode_eq_none :
    decodeOpcode op = none ↔ (34 ≤ op ∧ op ≤ 40) ∨ (44 ≤ op ∧ op ≤ 51) ∨ 55 ≤ op := by
  simp [decodeOpcode, opcodeMap, opcodeRows0, opcodeRows1, opcodeRows2, opcodeRows3]
  omega

/-- The row of a mode gives the instruction that many operand words, in order (R92, D33). -/
theorem instrOf_fields (hrow : decodeOpcode op = some row) (hi : instrOf op w1 w2 = some i) :
    i.opcode = op ∧ i.operands = [w1, w2].take row.mode.words := by
  have table : ∀ r ∈ opcodeMap, (instrOf r.opcode w1 w2).map (fun i => (i.opcode, i.operands))
      = some (r.opcode, [w1, w2].take r.mode.words) := List.map_inj_left.1 rfl
  simpa [decodeOpcode_opcode hrow, hi] using table row (List.mem_of_find?_eq_some hrow)

/-- Every instruction is the one of its own opcode and operand words; words that it has not are not looked at. -/
theorem instrOf_opcode (i : Instr) (w1 w2 : Word) :
    instrOf i.opcode (i.operands.getD 0 w1) (i.operands.getD 1 w2) = some i := by
  cases i <;> rfl

/-- The law of Laws/PerInstr.lean for all instructions at once. -/
theorem encodedForm (i : Instr) : Laws.EncodedForm.Statement i := by
  cases i <;> exact ⟨rfl, rfl, _, rfl, rfl, rfl⟩

/-- An opcode is one byte (R90). -/
theorem opcode_lt (i : Instr) : i.opcode < 256 := by
  obtain ⟨-, -, row, hrow, -⟩ := encodedForm i
  have assigned : decodeOpcode i.opcode ≠ none := by simp [hrow]
  rw [Ne, decodeOpcode_eq_none] at assigned
  omega

/-! ### Operand words and their bytes (R62, R90) -/

/-- Four bytes that are read as a number are the bytes of its word. -/
theorem wordBytes_of_takeLE {n : Nat} (h : takeLE 4 bytes = some n) : wordBytes (BitVec.ofNat 32 n) = bytes.take 4 := by
  match bytes with
  | [] | [_] | [_, _] | [_, _, _] => simp [takeLE] at h
  | a :: b :: c :: d :: rest =>
    simp only [takeLE, Option.map_some, Option.some.injEq] at h
    subst h
    have := a.isLt
    have := b.isLt
    have := c.isLt
    have := d.isLt
    simp only [wordBytes, List.take_succ_cons, List.take_zero, List.cons.injEq, and_true]
    refine ⟨?_, ?_, ?_, ?_⟩ <;> apply BitVec.eq_of_toNat_eq <;>
      simp only [BitVec.extractLsb'_toNat, BitVec.toNat_ofNat, Nat.shiftRight_eq_div_pow] <;> omega

/-- A word that is read inside the code has the bytes that stand there. -/
theorem wordBytes_operandWord {addr : Nat} (inside : addr + 4 ≤ bytes.length) :
    wordBytes (operandWord bytes addr) = (bytes.drop addr).take 4 := by
  have there : (memRead bytes addr 4).isSome := by
    rw [memRead, takeLE_isSome, List.length_drop]
    exact decide_eq_true (by omega)
  obtain ⟨n, hn⟩ := Option.isSome_iff_exists.1 there
  rw [operandWord, hn]
  exact wordBytes_of_takeLE hn

/-- The two words of the longest format, cut to the number that a mode has, have the bytes behind the opcode (R90). -/
theorem flatMap_operandWords {m : Mode} (inside : m.length ≤ bytes.length) :
    ([operandWord bytes 1, operandWord bytes 5].take m.words).flatMap wordBytes
      = (bytes.drop 1).take (4 * m.words) := by
  unfold Mode.length at inside
  have first : 1 ≤ m.words → wordBytes (operandWord bytes 1) = (bytes.drop 1).take 4 := fun _ =>
    wordBytes_operandWord (by omega)
  have second : 2 ≤ m.words → wordBytes (operandWord bytes 5) = (bytes.drop 5).take 4 := fun _ =>
    wordBytes_operandWord (by omega)
  cases m with
  | none => rfl
  | number | register | ramImmed | ramReg | label => simpa [Mode.words] using first le_rfl
  | ramRegImmed =>
    calc wordBytes (operandWord bytes 1) ++ (wordBytes (operandWord bytes 5) ++ [])
      _ = (bytes.drop 1).take 4 ++ ((bytes.drop 1).drop 4).take 4 := by
        rw [first (by decide), second (by decide), List.append_nil, List.drop_drop]
      _ = (bytes.drop 1).take 8 := List.take_add.symm

/-- Word `k` of an encoding reads back from its place, whatever follows (R92). -/
theorem operandWord_encode {k : Nat} (hk : k < i.operands.length) (rest : List Byte) :
    operandWord (encode i ++ rest) (1 + 4 * k) = i.operands[k] := by
  have length : ∀ ws : List Word, (ws.flatMap wordBytes).length = 4 * ws.length := fun ws => by
    simp [List.length_flatMap, Nat.mul_comm]
  have words : i.operands.flatMap wordBytes = (i.operands.take k).flatMap wordBytes
      ++ (wordBytes i.operands[k] ++ (i.operands.drop (k + 1)).flatMap wordBytes) := by
    rw [← List.flatMap_cons, ← List.flatMap_append, ← List.drop_eq_getElem_cons, List.take_append_drop]
  have cut : encode i ++ rest = (BitVec.ofNat 8 i.opcode :: (i.operands.take k).flatMap wordBytes)
      ++ wordBytes i.operands[k] ++ ((i.operands.drop (k + 1)).flatMap wordBytes ++ rest) := by
    simp [encode, words]
  have place : (BitVec.ofNat 8 i.opcode :: (i.operands.take k).flatMap wordBytes).length = 1 + 4 * k := by
    simp [length, Nat.min_eq_left hk.le, Nat.add_comm]
  rw [cut, ← place]
  exact (operandWordsReadBack _ _ _).2

/-! ### The codec (R90, R92, R104, R111) -/

/-- A first byte without a row. -/
theorem decode_unknownOpcode {b : Byte} {rest : List Byte} (h : decodeOpcode b.toNat = none) :
    decode (b :: rest) = .unknownOpcode b.toNat := by
  simp [decode, h]

/-- A row whose length is not there. -/
theorem decode_truncated {b : Byte} {rest : List Byte} (hrow : decodeOpcode b.toNat = some row)
    (short : (b :: rest).length < row.mode.length) : decode (b :: rest) = .truncated := by
  simp only [decode, memRead_first, hrow]
  exact if_pos short

/-- A row whose length is there, with the instruction of its words. -/
theorem decode_instr {b : Byte} {rest : List Byte} (hrow : decodeOpcode b.toNat = some row)
    (there : row.mode.length ≤ (b :: rest).length)
    (hi : instrOf b.toNat (operandWord (b :: rest) 1) (operandWord (b :: rest) 5) = some i) :
    decode (b :: rest) = .instr i row.mode.length := by
  simp only [decode, memRead_first, hrow, hi]
  exact if_neg there.not_gt

/-- Bytes decode to an instruction only by the row of their first byte, with its whole length there (R104, R111). -/
theorem decode_instr_inv (h : decode bytes = .instr i len) :
    ∃ b rest row, bytes = b :: rest ∧ decodeOpcode b.toNat = some row ∧ len = row.mode.length
      ∧ len ≤ bytes.length ∧ instrOf b.toNat (operandWord bytes 1) (operandWord bytes 5) = some i := by
  cases bytes with
  | nil => cases h
  | cons b rest =>
    simp only [decode, memRead_first] at h
    split at h
    · cases h
    · rename_i row hrow
      split at h
      · cases h
      · rename_i there
        split at h
        · cases h
        · rename_i hi
          cases h
          exact ⟨b, rest, row, rfl, hrow, rfl, not_lt.1 there, hi⟩

/-- Settles O5: the opcode byte has the instruction's row, which has its length, and the operand words read back. -/
theorem decodeEncode : Obligations.DecodeEncode := by
  intro i rest
  obtain ⟨hlen, -, row, hrow, -, hmode⟩ := encodedForm i
  have byte : (BitVec.ofNat 8 i.opcode).toNat = i.opcode := Nat.mod_eq_of_lt (opcode_lt i)
  have word : ∀ k, i.operands.getD k (operandWord (encode i ++ rest) (1 + 4 * k))
      = operandWord (encode i ++ rest) (1 + 4 * k) := fun k => by
    rcases Nat.lt_or_ge k i.operands.length with hk | hk
    · rw [operandWord_encode hk, List.getD_eq_getElem _ _ hk]
    · exact List.getD_eq_default _ _ hk
  have read := instrOf_opcode i (operandWord (encode i ++ rest) 1) (operandWord (encode i ++ rest) 5)
  rw [word 0, word 1, ← byte] at read
  have there : row.mode.length ≤ (encode i ++ rest).length := by
    rw [hmode, ← hlen, List.length_append]
    exact Nat.le_add_right _ _
  rw [hlen, ← hmode]
  exact decode_instr (byte.symm ▸ hrow) there read

/-- Settles O6: the first byte is the opcode of the instruction, and behind it stand the bytes of its operand words. -/
theorem encodeDecode : Obligations.EncodeDecode := by
  intro bytes i len h
  obtain ⟨b, rest, row, rfl, hrow, rfl, there, hi⟩ := decode_instr_inv h
  obtain ⟨hop, hwords⟩ := instrOf_fields hrow hi
  refine ⟨?_, (Machine.instrOf_length hrow hi).symm⟩
  rw [encode, hop, hwords, flatMap_operandWords there, Mode.length, Nat.add_comm]
  simp

/-- Bytes decode to an instruction exactly where they begin with its encoding. -/
theorem decode_eq_instr_iff : decode bytes = .instr i len ↔ encode i <+: bytes ∧ len = i.length := by
  constructor
  · intro h
    obtain ⟨front, own⟩ := encodeDecode bytes i len h
    exact ⟨front ▸ List.take_prefix len bytes, own⟩
  · rintro ⟨⟨rest, rfl⟩, rfl⟩
    rw [← encode_length]
    exact decodeEncode i rest

end Sys2Proof

namespace Sys2Proof.Machine

variable {s t : State} {i : Instr} {len : Nat}

/-! ### The fetch of a running machine (R110 to R114) -/

/-- With no byte at `pc` the fetch says so (R113). -/
theorem fetch_atEnd (h : s.codeLength ≤ s.pc) : fetch s = .endOfCode := by
  rw [fetch, List.drop_eq_nil_of_le h]
  rfl

/-- A machine that fetches an instruction has a byte at `pc`. -/
theorem pc_lt_of_fetch (h : fetch s = .instr i len) : s.pc < s.codeLength := by
  by_contra atEnd
  rw [fetch_atEnd (not_lt.1 atEnd)] at h
  cases h

/-- A running machine dispatches on what it fetches; at the end of the code that is the halt of R113. -/
theorem step_running (running : s.halted = false) (unfaulted : s.cause = none) : step s = dispatch exec s := by
  rcases Nat.lt_or_ge s.pc s.codeLength with inside | atEnd
  · simp [step, running, unfaulted, inside.not_ge]
  · simp [step, running, unfaulted, atEnd, dispatch, fetch_atEnd atEnd]

/-- A step runs the instruction it fetches (R110). -/
theorem step_of_fetch (running : s.halted = false) (unfaulted : s.cause = none) (h : fetch s = .instr i len) :
    step s = exec i s := by
  rw [step_running running unfaulted, dispatch, h]

/-- Settles O13. -/
theorem endOfCodeHalts : Obligations.EndOfCodeHalts := by
  intro s running unfaulted atEnd
  rw [step_running running unfaulted, dispatch, fetch_atEnd atEnd]
  rfl

/-- Settles O8: the case `L = 0` of R113. -/
theorem resetHaltsAtItsFirstStep : Obligations.ResetHaltsAtItsFirstStep :=
  endOfCodeHalts State.reset rfl rfl le_rfl

/-- Settles O10. -/
theorem stepRunsTheDecodedInstruction : Obligations.StepRunsTheDecodedInstruction := by
  intro s i len running unfaulted h
  obtain ⟨-, own⟩ := decode_eq_instr_iff.1 h
  exact ⟨step_of_fetch running unfaulted h, own ▸ fetch_fits h (pc_lt_of_fetch h).le, own⟩

/-- Settles O11: the fetch at a first byte without a row; the count evaluates the decoder on the 256 bytes. -/
theorem unassignedOpcodesRaiseUnknownOpcode : Obligations.UnassignedOpcodesRaiseUnknownOpcode := by
  refine ⟨fun op => decodeOpcode_eq_none, ?_, fun s op rest running unfaulted code unassigned => ?_⟩
  · rfl
  · have fetched : fetch s = .unknownOpcode op.toNat := by
      rw [fetch, code, decode_unknownOpcode (decodeOpcode_eq_none.2 unassigned)]
    rw [step_running running unfaulted, dispatch, fetched]
    rfl

/-- Settles O12: fewer bytes are left than the row of the opcode needs. -/
theorem truncatedInstructionsRaise : Obligations.TruncatedInstructionsRaise := by
  intro s op rest row running unfaulted code hrow past
  have short : (op :: rest).length < row.mode.length := by
    have left := congrArg List.length code
    simp only [List.length_drop, List.length_cons, State.codeLength] at left past ⊢
    omega
  have fetched : fetch s = .truncated := by
    rw [fetch, code, decode_truncated hrow short]
  rw [step_running running unfaulted, dispatch, fetched]
  rfl

/-! ### What a step sees of the code (R114) -/

/-- Bytes that agree with an instruction's own decode to it too. -/
theorem decode_of_take_eq {bytes other : List Byte} (h : decode bytes = .instr i len)
    (same : other.take len = bytes.take len) : decode other = .instr i len := by
  obtain ⟨front, own⟩ := encodeDecode bytes i len h
  refine decode_eq_instr_iff.2 ⟨?_, own⟩
  rw [← front, ← same]
  exact List.take_prefix len other

/-- Settles O55: other code with the same bytes at `pc` fetches the same instruction, which sees of the code
its length only. -/
theorem aStepSeesOnlyItsOwnBytes : Obligations.AStepSeesOnlyItsOwnBytes := by
  intro s other i len h sameLength sameBytes
  change step (s.withCode other) = mapNext (State.withCode other) (step s)
  cases running : s.halted with
  | true => simp [step, mapNext, State.withCode, running]
  | false =>
    cases unfaulted : s.cause with
    | some c => simp [step, mapNext, State.withCode, running, unfaulted]
    | none =>
      have fetched : fetch (s.withCode other) = .instr i len := decode_of_take_eq h sameBytes
      rw [step_of_fetch running unfaulted h, step_of_fetch (s := s.withCode other) running unfaulted fetched,
        exec_withCode sameLength]

/-! ### Illegal operand words (R103) -/

/-- The faults that only an illegal operand word of the instruction can raise: a register word, a direct index, a
literal descriptor or a literal target (R94, R66, R213, R181). -/
def operandFault (i : Instr) (c : Cause) : Bool :=
  match c, i with
  | .invalidRegister, _ => true
  | .memoryOutOfBounds, .pushMemK _ | .memoryOutOfBounds, .popMemK _ => true
  | .pixelOutOfBounds, .pixN _ => true
  | .controlTransferOutOfBounds, .ret => false
  | .controlTransferOutOfBounds, _ => true
  | _, _ => false

/-- A transfer to a target that no operand word gives is only that of `ret` (R186). -/
theorem operandFault_controlTransfer (h : i ≠ .ret) : operandFault i .controlTransferOutOfBounds = true := by
  cases i with
  | ret => exact absurd rfl h
  | _ => rfl

/-- Whatever fault the machine has stopped with, it is not one of an illegal operand word of the instruction. -/
def NoOperandFault (i : Instr) (t : State) : Prop := ∀ c, t.cause = some c → operandFault i c = false

/-- A state without a cause. -/
theorem noOperandFault_of_running (h : t.cause = none) : NoOperandFault i t := by
  simp [NoOperandFault, h]

/-- A raise of another fault. -/
theorem noOperandFault_setCause {c : Cause} (h : operandFault i c = false) : NoOperandFault i (s.setCause c) := by
  rintro _ ⟨⟩
  exact h

section WellFormedOperands

variable {w : Word} {P : State → Prop}

/-- A legal register word passes its check. -/
theorem completes_legalReg {k : Fin 4 → Result} (legal : regWordOk w = true) (ok : ∀ r, Completes P (k r)) :
    Completes P (withReg w s k) := by
  obtain ⟨r, hr⟩ := Option.isSome_iff_exists.1 legal
  rw [withReg_ok (regIndex_eq_some.1 hr)]
  exact ok r

/-- A legal direct index passes its check. -/
theorem completes_legalIndex {k : Nat → Result} (legal : dataWordOk w = true) (ok : ∀ n, Completes P (k n)) :
    Completes P (withRamImmed w s k) := by
  obtain ⟨n, hn⟩ := Option.isSome_iff_exists.1 legal
  rw [withRamImmed, withIndex_ok (dataIndex_eq_some.1 hn)]
  exact ok n

/-- A legal target passes its check. -/
theorem completes_legalTarget {k : Nat → Result} (legal : targetWordOk s.codeLength w = true)
    (ok : ∀ n, Completes P (k n)) : Completes P (withTarget w.toInt s k) := by
  obtain ⟨n, hn⟩ := Option.isSome_iff_exists.1 legal
  rw [withTarget_ok (codeTarget_eq_some.1 hn)]
  exact ok n

/-- A legal descriptor passes its check. -/
theorem completes_legalPixel {k : Pixel → Result} (legal : pixelWordOk w = true) (ok : ∀ p, Completes P (k p)) :
    Completes P (withPixel w.toInt s k) := by
  obtain ⟨p, hp⟩ := Option.isSome_iff_exists.1 legal
  rw [withPixel, hp]
  exact ok p

/-- An index that a register gives is not of the instruction's own words, whatever fault it raises. -/
theorem withReg_withIndex_noOperandFault {index : Fin 4 → Int} {k : Nat → Result} (legal : regWordOk w = true)
    (computed : operandFault i .memoryOutOfBounds = false) (ok : ∀ n, Completes (NoOperandFault i) (k n)) :
    Completes (NoOperandFault i) (withReg w s fun r => withIndex (index r) s k) :=
  completes_legalReg legal fun _ => completes_withIndex (fun n _ => ok n) fun _ => noOperandFault_setCause computed

variable (unfaulted : s.cause = none)
include unfaulted

theorem pushAndAdvance_noOperandFault (v : Word) (n : Nat) :
    Completes (NoOperandFault i) (pushAndAdvance v n s) :=
  completes_pushing (fun _ => completes_next.2 (noOperandFault_of_running unfaulted))
    fun _ => noOperandFault_setCause rfl

theorem popToData_noOperandFault (k n : Nat) : Completes (NoOperandFault i) (popToData k n s) :=
  completes_popping (fun _ _ _ => completes_next.2 (noOperandFault_of_running unfaulted))
    fun _ => noOperandFault_setCause rfl

theorem binary_noOperandFault (f : Word → Word → Word) : Completes (NoOperandFault i) (binary f s) :=
  completes_peekTopTwo (fun _ _ _ _ => completes_next.2 (noOperandFault_of_running unfaulted))
    fun _ => noOperandFault_setCause rfl

theorem execDiv_noOperandFault : Completes (NoOperandFault .div) (execDiv s) := by
  refine completes_peekTopTwo (fun v u _ _ => ?_) fun _ => noOperandFault_setCause rfl
  split
  · exact completes_raise.2 (noOperandFault_setCause rfl)
  · exact completes_next.2 (noOperandFault_of_running unfaulted)

theorem execRet_noOperandFault : Completes (NoOperandFault .ret) (execRet s) :=
  completes_peekTop
    (fun _ _ _ => completes_withTarget
      (fun _ _ => completes_popping
        (fun _ _ _ => completes_next.2 (noOperandFault_of_running unfaulted)) fun _ => noOperandFault_setCause rfl)
      fun _ => noOperandFault_setCause rfl)
    fun _ => noOperandFault_setCause rfl

theorem callTo_noOperandFault (legal : targetWordOk s.codeLength w = true) :
    Completes (NoOperandFault i) (callTo w s) :=
  completes_legalTarget legal fun _ => completes_pushing
    (fun _ => completes_next.2 (noOperandFault_of_running unfaulted)) fun _ => noOperandFault_setCause rfl

theorem jumpTo_noOperandFault (legal : targetWordOk s.codeLength w = true) :
    Completes (NoOperandFault i) (jumpTo w s) :=
  completes_legalTarget legal fun _ => completes_next.2 (noOperandFault_of_running unfaulted)

theorem jumpIf_noOperandFault (c : Cond) (legal : targetWordOk s.codeLength w = true) :
    Completes (NoOperandFault i) (jumpIf c w s) := by
  refine completes_peekTopTwo (fun v u _ _ => ?_) fun _ => noOperandFault_setCause rfl
  split
  · exact jumpTo_noOperandFault unfaulted legal
  · exact completes_next.2 (noOperandFault_of_running unfaulted)

/-- `in` has no operand word, and its only fault is StackOverflow (R210). -/
theorem execIn_noOperandFault (h : execIn s = .next t) : NoOperandFault .in_ t := by
  unfold execIn at h
  split at h
  · obtain ⟨n, rest, -, h⟩ := receiving_next h
    rcases pushing_next h with ⟨-, h⟩ | ⟨-, rfl⟩
    · cases h
      exact noOperandFault_of_running unfaulted
    · exact noOperandFault_setCause rfl
  · obtain rfl := raise_next.1 h
    exact noOperandFault_setCause rfl

/-- An instruction that passes the checks of R103, `sqrt` and `in` aside, completes without a fault of its words. -/
theorem exec_completes_noOperandFault (legal : i.wellFormed s.codeLength = true) (notSqrt : i ≠ .sqrt)
    (notIn : i ≠ .in_) : Completes (NoOperandFault i) (exec i s) := by
  have quiet : ∀ {t}, t.cause = s.cause → Completes (NoOperandFault i) (.next t) := fun same =>
    completes_next.2 (noOperandFault_of_running (same.trans unfaulted))
  cases i with
  | sqrt => exact absurd rfl notSqrt
  | in_ => exact absurd rfl notIn
  | nop | end_ | draw | delayN _ => exact quiet rfl
  | add | sub | mul => exact binary_noOperandFault unfaulted _
  | div => exact execDiv_noOperandFault unfaulted
  | ret => exact execRet_noOperandFault unfaulted
  | out => exact completes_peekTop (fun _ _ _ => quiet rfl) fun _ => noOperandFault_setCause rfl
  | incR _ => exact completes_legalReg legal fun _ => quiet rfl
  | popR _ =>
    exact completes_legalReg legal fun _ => completes_popping (fun _ _ _ => quiet rfl)
      fun _ => noOperandFault_setCause rfl
  | pixN _ => exact completes_legalPixel legal fun _ => quiet rfl
  | pixR _ =>
    exact completes_legalReg legal fun _ => completes_withPixel (fun _ _ => quiet rfl)
      fun _ => noOperandFault_setCause rfl
  | pushN _ => exact pushAndAdvance_noOperandFault unfaulted _ _
  | pushR _ => exact completes_legalReg legal fun _ => pushAndAdvance_noOperandFault unfaulted _ _
  | pushMemK _ => exact completes_legalIndex legal fun _ => pushAndAdvance_noOperandFault unfaulted _ _
  | pushMemR _ | pushMemRD _ _ =>
    exact withReg_withIndex_noOperandFault legal rfl fun _ => pushAndAdvance_noOperandFault unfaulted _ _
  | popMemK _ => exact completes_legalIndex legal fun _ => popToData_noOperandFault unfaulted _ _
  | popMemR _ | popMemRD _ _ =>
    exact withReg_withIndex_noOperandFault legal rfl fun _ => popToData_noOperandFault unfaulted _ _
  | callLabel _ | callN _ => exact callTo_noOperandFault unfaulted legal
  | jmpLabel _ | jmpN _ => exact jumpTo_noOperandFault unfaulted legal
  | jaLabel _ | jaN _ | jaeLabel _ | jaeN _ | jbLabel _ | jbN _ | jbeLabel _ | jbeN _ | jeLabel _ | jeN _ | jneLabel _
  | jneN _ => exact jumpIf_noOperandFault unfaulted _ legal

end WellFormedOperands

/-- Settles O56: each fault it names is one that only an illegal operand word of the instruction raises. -/
theorem wellFormedOperandsDoNotFault : Obligations.WellFormedOperandsDoNotFault := by
  intro i s t legal notSqrt unfaulted h
  have clean : NoOperandFault i t := by
    by_cases hi : i = .in_
    · subst hi
      exact execIn_noOperandFault unfaulted h
    · exact (exec_completes_noOperandFault unfaulted legal notSqrt hi).of_next h
  have excluded : ∀ {c}, operandFault i c = true → t.cause ≠ some c := fun ofWord raised => by
    simp [clean _ raised] at ofWord
  refine ⟨excluded rfl, ?_, ?_, fun notRet => excluded ?_⟩
  · rintro w (rfl | rfl)
    · exact excluded rfl
    · exact excluded rfl
  · rintro w rfl
    exact excluded rfl
  · exact operandFault_controlTransfer notRet

section Assembler

variable {table table' : LabelTable} {name : List Char} {offset total : Nat} {items : List AsmItem} {item : AsmItem}
  {instrs : List Instr} {lines : List (List (List Char))} {bytes : List Byte}

/-! ### The assembler: pass 1 (R121, R127) -/

/-- A sequence of two checked computations that succeeds. -/
theorem bind_eq_ok {α β : Type} {x : Except AsmError α} {f : α → Except AsmError β} {r : β} :
    (x >>= f) = .ok r ↔ ∃ a, x = .ok a ∧ f a = .ok r := by
  cases x <;> simp [bind, Except.bind]

/-- Pass 1 over two pieces of source goes on from where the first one ends. -/
theorem pass1_append (items rest : List AsmItem) (offset : Nat) (table : LabelTable) :
    pass1 (items ++ rest) offset table = pass1 items offset table >>= fun r => pass1 rest r.2 r.1 := by
  induction items generalizing offset table with
  | nil => rfl
  | cons item items ih =>
    cases item with
    | label name =>
      simp only [List.cons_append, pass1]
      split
      · rfl
      · exact ih ..
    | instr | toLabel => exact ih ..

/-- Every label of the first table has its offset in the second one too. -/
def Extends (table table' : LabelTable) : Prop :=
  ∀ name k, labelOffset table name = some k → labelOffset table' name = some k

theorem Extends.trans {table'' : LabelTable} (h : Extends table table') (h' : Extends table' table'') :
    Extends table table'' :=
  fun name k defined => h' name k (h name k defined)

/-- An entry for a name that is not defined hides no other. -/
theorem extends_cons (undefined : labelOffset table name = none) : Extends table ((name, offset) :: table) := by
  intro other k defined
  have different : name ≠ other := by
    rintro rfl
    simp [defined] at undefined
  simpa [labelOffset, different] using defined

/-- Everything that pass 1 can do with an item it accepts: it counts the item's size, and enters a label, which was not
defined, at the offset it has reached. -/
theorem pass1_cons (h : pass1 (item :: items) offset table = .ok (table', total)) :
    ∃ next, pass1 items (offset + itemSize item) next = .ok (table', total) ∧ Extends table next
      ∧ ∀ name, item = .label name → labelOffset table name = none ∧ labelOffset next name = some offset := by
  cases item with
  | label name =>
    simp only [pass1] at h
    split at h
    · cases h
    · rename_i undefined
      refine ⟨_, h, extends_cons undefined, ?_⟩
      rintro _ ⟨⟩
      exact ⟨undefined, by simp [labelOffset]⟩
  | instr | toLabel => exact ⟨table, h, fun _ _ => id, nofun⟩

/-- Pass 1 counts the sizes of the items and keeps the labels that are defined. -/
theorem pass1_total_and_extends (h : pass1 items offset table = .ok (table', total)) :
    total = offset + (items.map itemSize).sum ∧ Extends table table' := by
  induction items generalizing offset table with
  | nil =>
    cases h
    exact ⟨rfl, fun _ _ => id⟩
  | cons item items ih =>
    obtain ⟨next, h, kept, -⟩ := pass1_cons h
    obtain ⟨count, later⟩ := ih h
    rw [List.map_cons, List.sum_cons, ← Nat.add_assoc]
    exact ⟨count, kept.trans later⟩

/-- The only error of pass 1 (R121). -/
theorem pass1_error {e : AsmError} (h : pass1 items offset table = .error e) : e = .duplicateLabel := by
  induction items generalizing offset table with
  | nil => cases h
  | cons item items ih =>
    cases item with
    | label name =>
      simp only [pass1] at h
      split at h
      · cases h
        rfl
      · exact ih h
    | instr | toLabel => exact ih h

/-- A label in an accepted source was not defined before it, and is entered with the size of what stands before it. -/
theorem pass1_label {before behind : List AsmItem}
    (h : pass1 (before ++ .label name :: behind) offset table = .ok (table', total)) :
    ∃ next, labelOffset table name = none ∧ labelOffset next name = some (offset + (before.map itemSize).sum)
      ∧ pass1 behind (offset + (before.map itemSize).sum) next = .ok (table', total) := by
  rw [pass1_append, bind_eq_ok] at h
  obtain ⟨⟨reached, at_⟩, first, h⟩ := h
  obtain ⟨rfl, kept⟩ := pass1_total_and_extends first
  obtain ⟨next, h, -, entered⟩ := pass1_cons h
  obtain ⟨undefined, entered⟩ := entered name rfl
  refine ⟨next, ?_, entered, h⟩
  rw [Option.eq_none_iff_forall_ne_some]
  intro k defined
  simp [kept name k defined] at undefined

/-- Settles O58: pass 1 enters the label at its offset and keeps the entry, so that a second definition meets it. -/
theorem labelsAreByteOffsets : Obligations.LabelsAreByteOffsets := by
  refine ⟨fun before behind name table total h => ?_, fun before between behind name => ?_⟩
  · obtain ⟨_, -, entered, h⟩ := pass1_label h
    obtain ⟨-, kept⟩ := pass1_total_and_extends h
    rw [kept name _ entered, Nat.zero_add]
  · rw [List.append_assoc, List.cons_append]
    cases h : pass1 (before ++ .label name :: (between ++ .label name :: behind)) 0 [] with
    | error e => rw [pass1_error h]
    | ok r =>
      obtain ⟨_, -, entered, h⟩ := pass1_label h
      obtain ⟨_, undefined, -⟩ := pass1_label h
      simp [entered] at undefined

/-! ### The assembler: pass 2 (R127, R128) -/

/-- An item that pass 2 gives the size of pass 1: a transfer to a label has an opcode of mode `LABEL` (R123, R126). -/
def Sized : AsmItem → Prop
  | .toLabel op _ => ∃ row ∈ opcodeMap, row.mode = .label ∧ row.opcode = op
  | _ => True

/-- What the overload table selects is an opcode of the mode it was asked for (R126). -/
theorem overload_eq_some {m : Mnemonic} {mode : Mode} {op : Nat} (h : overload m mode = some op) :
    ∃ row ∈ opcodeMap, row.mode = mode ∧ row.opcode = op := by
  obtain ⟨row, found, rfl⟩ := Option.map_eq_some_iff.1 h
  have fits := List.find?_some found
  simp only [Bool.and_eq_true, beq_iff_eq] at fits
  exact ⟨row, List.mem_of_find?_eq_some found, fits.2, rfl⟩

theorem selected_sized {op : Nat} {w1 w2 : Word} (h : selected op w1 w2 = .ok item) : Sized item := by
  unfold selected at h
  split at h <;> cases h
  trivial

/-- A label operand keeps the opcode that was selected for it; every other operand is settled at once. -/
theorem itemOf_sized {op : Nat} {m : Mnemonic} {operand : Operand}
    (selects : overload m (operandMode m operand) = some op)
    (h : itemOf op (takesLabel m) operand = .ok item) : Sized item := by
  cases operand with
  | none => exact selected_sized h
  | number n | ramImmed n | ramReg name =>
    obtain ⟨w, -, h⟩ := bind_eq_ok.1 h
    exact selected_sized h
  | ramRegImmed name disp =>
    obtain ⟨w, -, h⟩ := bind_eq_ok.1 h
    obtain ⟨v, -, h⟩ := bind_eq_ok.1 h
    exact selected_sized h
  | name text =>
    cases hm : takesLabel m with
    | true =>
      simp only [itemOf, hm, if_true] at h
      cases h
      simp only [operandMode, hm, if_true] at selects
      exact overload_eq_some selects
    | false =>
      simp only [itemOf, hm] at h
      obtain ⟨w, -, h⟩ := bind_eq_ok.1 h
      exact selected_sized h

theorem parseInstruction_sized {mnemonic operand : List Char} (h : parseInstruction mnemonic operand = .ok item) :
    Sized item := by
  unfold parseInstruction selectOverload at h
  split at h
  · cases h
  · split at h
    · cases h
    · split at h
      · cases h
      · split at h
        · cases h
        · exact itemOf_sized ‹_› h

theorem parseLine_sized {tokens : List (List Char)} (h : parseLine tokens = .ok item) : Sized item := by
  unfold parseLine at h
  split at h
  · split at h
    · unfold labelName at h
      split at h <;> cases h
      trivial
    · exact parseInstruction_sized h
  · split at h
    · cases h
    · exact parseInstruction_sized h
  · cases h

/-- Every item of a source that parses is sized. -/
theorem parseLines_sized (h : parseLines lines = .ok items) : ∀ item ∈ items, Sized item := by
  induction lines generalizing items with
  | nil =>
    cases h
    simp
  | cons line lines ih =>
    obtain ⟨item, hitem, h⟩ := bind_eq_ok.1 h
    obtain ⟨later, hlater, h⟩ := bind_eq_ok.1 h
    cases h
    exact List.forall_mem_cons.2 ⟨parseLine_sized hitem, ih hlater⟩

/-- Pass 2 emits for an item what pass 1 counted for it. -/
theorem resolve_length (sized : Sized item) (h : resolve table item = .ok instrs) :
    (instrs.map Instr.length).sum = itemSize item := by
  cases item with
  | label | instr =>
    cases h
    rfl
  | toLabel op name =>
    obtain ⟨row, mem, mode, rfl⟩ := sized
    simp only [resolve] at h
    split at h
    · cases h
    · split at h
      · rename_i i hi
        cases h
        simpa [itemSize, mode] using instrOf_length (decodeOpcode_of_mem mem) hi
      · cases h

theorem pass2_length (sized : ∀ item ∈ items, Sized item) (h : pass2 table items = .ok instrs) :
    (instrs.map Instr.length).sum = (items.map itemSize).sum := by
  induction items generalizing instrs with
  | nil =>
    cases h
    rfl
  | cons item items ih =>
    obtain ⟨here, hhere, h⟩ := bind_eq_ok.1 h
    obtain ⟨later, hlater, h⟩ := bind_eq_ok.1 h
    obtain ⟨sizedItem, sizedItems⟩ := List.forall_mem_cons.1 sized
    cases h
    simp [resolve_length sizedItem hhere, ih sizedItems hlater]

/-- The bytes of a sequence of instructions are as many as their lengths add up to. -/
theorem flatMap_encode_length (instrs : List Instr) :
    (instrs.flatMap encode).length = (instrs.map Instr.length).sum := by
  simp [List.length_flatMap, encode_length]

/-- What the assembler accepts passes through its three parts. -/
theorem assembleInstrs_eq_ok : assembleInstrs lines = .ok instrs ↔
    ∃ items table total, parseLines lines = .ok items ∧ pass1 items 0 [] = .ok (table, total)
      ∧ pass2 table items = .ok instrs := by
  simp [assembleInstrs, bind_eq_ok]

/-- The bytes are those of the emitted instructions (R128). -/
theorem assemble_eq_ok : assemble lines = .ok bytes ↔
    ∃ instrs, assembleInstrs lines = .ok instrs ∧ instrs.flatMap encode = bytes := by
  simp [assemble, bind_eq_ok]

/-- Settles O57: both passes count the sizes of the same items. -/
theorem assembledLengthIsThePass1Length : Obligations.AssembledLengthIsThePass1Length := by
  intro lines items table total bytes parsed first h
  obtain ⟨instrs, emitted, rfl⟩ := assemble_eq_ok.1 h
  obtain ⟨items', table', total', parsed', first', second⟩ := assembleInstrs_eq_ok.1 emitted
  cases parsed.symm.trans parsed'
  cases first.symm.trans first'
  obtain ⟨count, -⟩ := pass1_total_and_extends first
  refine ⟨?_, instrs, second, rfl⟩
  rw [flatMap_encode_length, pass2_length (parseLines_sized parsed) second, count, Nat.zero_add]

/-- Settles O59: behind the bytes of the instructions before it stands the encoding of the instruction. -/
theorem assembledCodeDecodes : Obligations.AssembledCodeDecodes := by
  intro lines before i behind bytes emitted h
  obtain ⟨instrs, emitted', rfl⟩ := assemble_eq_ok.1 h
  cases emitted.symm.trans emitted'
  rw [List.flatMap_append, List.flatMap_cons, ← flatMap_encode_length, List.drop_left]
  exact decode_eq_instr_iff.2 ⟨List.prefix_append _ _, rfl⟩

end Assembler

end Sys2Proof.Machine
end

section
/-! Proofs for 40_stack_memory.md. First what the two shared operations of the family, `pushAndAdvance` and `popToData`, answer
in each case. Then the three cases of a load from, and of a store into, the data word at an exact index. The three memory
forms of `push`, and those of `pop`, differ only in how they compute that index. -/

namespace Sys2Proof.Machine

variable {s : State} {i : Instr} {index : Int} {len : Nat}

/-! ### Writes to data memory -/

/-- In canonical form a data word reads the value last written to it (R64). -/
theorem State.writeData_readData_same (wf : Memory.wf dmemWords s.dm) (k : Nat) (v : Word) :
    (s.writeData k v).readData k = v :=
  Memory.read_write_same wf.1 k v

/-- A write to a data word leaves every other one as it was (R64). -/
theorem State.writeData_sameDataBut (s : State) (k : Nat) (v : Word) : SameDataBut k s (s.writeData k v) :=
  fun _ other => Memory.read_write_other s.dm v other

/-- A write to a register leaves every other one as it was (R21). -/
theorem State.setReg_sameRegsBut (s : State) (r : Fin 4) (v : Word) : SameRegsBut r s (s.setReg r v) :=
  fun _ other => s.setReg_reg_other v other

/-! ### Push and pop -/

/-- Below the capacity the value is on top and `pc` has advanced (R33, R112). -/
theorem pushAndAdvance_ok (v : Word) (len : Nat) (room : s.stack.length < s.stackCapacity) :
    pushAndAdvance v len s = .next { s with pc := s.pc + len, stack := v :: s.stack } :=
  pushing_ok room

theorem pushAndAdvance_raises (v : Word) (len : Nat) (full : s.stack.length = s.stackCapacity) :
    pushAndAdvance v len s = raise .stackOverflow s :=
  pushing_raises full.ge

/-- With an entry on the stack, that entry is in data word `k` and `pc` has advanced (R33, R64, R112). -/
theorem popToData_ok {v : Word} {rest : List Word} (k len : Nat) (top : s.stack = v :: rest) :
    popToData k len s = .next (((s.setStack rest).writeData k v).advance len) :=
  popping_ok top

theorem popToData_raises (k len : Nat) (empty : s.stack = []) : popToData k len s = raise .stackUnderflow s :=
  popping_raises empty

/-- Settles O17: the value that `scaleUp` pushes is the wrapped product of D3. -/
theorem pushNumber : Obligations.PushNumber := fun w1 _ =>
  ⟨rfl, pushAndAdvance_ok (scaleUp w1) 5, pushAndAdvance_raises (scaleUp w1) 5⟩

/-- Settles O18: behind the register check stands the push of the register's value. -/
theorem pushRegister : Obligations.PushRegister := fun _ s =>
  ⟨rfl, fun r legal room => (withReg_ok legal).trans (pushAndAdvance_ok (s.reg r) 5 room), withReg_raises,
    fun r legal full => (withReg_ok legal).trans (pushAndAdvance_raises (s.reg r) 5 full)⟩

/-- Settles O22: behind the register check the top leaves the stack and goes into the register. -/
theorem popRegister : Obligations.PopRegister := by
  intro w1 s
  refine ⟨rfl, fun r v rest legal top => ?_, withReg_raises, fun r legal empty =>
    (withReg_ok legal).trans (popping_raises empty)⟩
  have run : exec (.popR w1) s = .next (((s.setStack rest).setReg r v).advance 5) :=
    (withReg_ok legal).trans (popping_ok top)
  exact ⟨_, run, State.setReg_reg_same _ r v, (s.setStack rest).setReg_sameRegsBut r v, rfl⟩

/-! ### The data word at an exact index -/

/-- The instruction, of length `len`, pushes the data word at an exact index: the three cases of R142 to R144 once the index is
known. -/
def PushesDataAt (i : Instr) (index : Int) (len : Nat) (s : State) : Prop :=
  (∀ k : Nat, index = k → k < 1024 → s.stack.length < s.stackCapacity →
      exec i s = .next { s with pc := s.pc + len, stack := s.readData k :: s.stack })
  ∧ (index < 0 ∨ 1024 ≤ index → Raises i s .memoryOutOfBounds)
  ∧ (0 ≤ index → index < 1024 → s.stack.length = s.stackCapacity → Raises i s .stackOverflow)

/-- The instruction, of length `len`, pops into the data word at an exact index: the three cases of R146 to R148 once the index
is known, the bounds check first (D19). -/
def PopsDataAt (i : Instr) (index : Int) (len : Nat) (s : State) : Prop :=
  (∀ (k : Nat) (v : Word) (rest : List Word), index = k → k < 1024 → s.stack = v :: rest →
      ∃ t, exec i s = .next t ∧ t.readData k = v ∧ SameDataBut k s t
        ∧ t = { s with pc := s.pc + len, stack := rest, dm := t.dm })
  ∧ (index < 0 ∨ 1024 ≤ index → Raises i s .memoryOutOfBounds)
  ∧ (0 ≤ index → index < 1024 → s.stack = [] → Raises i s .stackUnderflow)

/-- An index that passes the bounds check of R66 goes on as the address it is. -/
theorem withIndex_inside {k : Nat → Result} (nonneg : 0 ≤ index) (below : index < 1024) :
    withIndex index s k = k index.toNat :=
  withIndex_ok ⟨(Int.toNat_of_nonneg nonneg).symm, (Int.toNat_lt nonneg).2 below⟩

/-- A bounds check followed by the push of the data word. -/
theorem pushesDataAt (run : exec i s = withIndex index s fun k => pushAndAdvance (s.readData k) len s) :
    PushesDataAt i index len s := by
  refine ⟨fun k hk inside room => ?_, fun outside => ?_, fun nonneg below full => ?_⟩
  · rw [run, withIndex_ok ⟨hk, inside⟩, pushAndAdvance_ok _ _ room]
  · exact run.trans (withIndex_raises outside)
  · exact run.trans ((withIndex_inside nonneg below).trans (pushAndAdvance_raises _ _ full))

/-- A bounds check followed by the pop into the data word. -/
theorem popsDataAt (wf : Memory.wf dmemWords s.dm) (run : exec i s = withIndex index s fun k => popToData k len s) :
    PopsDataAt i index len s := by
  refine ⟨fun k v rest hk inside top => ?_, fun outside => ?_, fun nonneg below empty => ?_⟩
  · refine ⟨((s.setStack rest).writeData k v).advance len, ?_, ?_, ?_, rfl⟩
    · rw [run, withIndex_ok ⟨hk, inside⟩, popToData_ok k len top]
    · exact State.writeData_readData_same (s := s.setStack rest) wf k v
    · exact (s.setStack rest).writeData_sameDataBut k v
  · exact run.trans (withIndex_raises outside)
  · exact run.trans ((withIndex_inside nonneg below).trans (popToData_raises _ _ empty))

/-- Settles O19: the index is the operand word. -/
theorem pushDirect : Obligations.PushDirect := fun w1 _ =>
  ⟨rfl, pushesDataAt (i := .pushMemK w1) rfl⟩

/-- Settles O20: behind the register check the index is the register divided by the scale. -/
theorem pushIndirect : Obligations.PushIndirect := fun w1 _ =>
  ⟨rfl, withReg_raises, fun _ legal => pushesDataAt (i := .pushMemR w1) (withReg_ok legal)⟩

/-- Settles O21: behind the register check the index is the register divided by the scale, plus the displacement. -/
theorem pushDisplaced : Obligations.PushDisplaced := fun w1 w2 _ =>
  ⟨rfl, withReg_raises, fun _ legal => pushesDataAt (i := .pushMemRD w1 w2) (withReg_ok legal)⟩

/-- Settles O23: the index is the operand word. -/
theorem popDirect : Obligations.PopDirect := fun w1 _ wf =>
  ⟨rfl, popsDataAt (i := .popMemK w1) wf rfl⟩

/-- Settles O24: behind the register check the index is the register divided by the scale, read before the pop. -/
theorem popIndirect : Obligations.PopIndirect := fun w1 _ wf =>
  ⟨rfl, withReg_raises, fun _ legal => popsDataAt (i := .popMemR w1) wf (withReg_ok legal)⟩

/-- Settles O25: behind the register check the index is the register divided by the scale, plus the displacement. -/
theorem popDisplaced : Obligations.PopDisplaced := fun w1 w2 _ wf =>
  ⟨rfl, withReg_raises, fun _ legal => popsDataAt (i := .popMemRD w1 w2) wf (withReg_ok legal)⟩

end Sys2Proof.Machine
end

section
/-! Proofs for 41_arithmetic.md. First the root of R165 as the integer nearest to `sqrt(100 v)`. Then what the shared operation
`binary`, `div`, `sqrt` and `inc` answer in each of their cases, on a stack that is given. -/

namespace Sys2Proof.Machine

variable {s : State} {v top second : Word} {rest : List Word}

/-! ### The root of a value that is not negative -/

/-- A word that is not negative has a scaled value within the reach of `isqrt` (R165). -/
theorem scaled_lt_of_nonneg (nonneg : 0 ≤ v.toInt) : 100 * v.toNat < 2 ^ 38 := by
  have signed := toInt_eq_toNat nonneg
  have below := BitVec.toInt_lt (x := v)
  omega

/-- The root is the largest `q` with `q*q <= 100 v`, or the integer after it where that is nearer (R165, D15). -/
theorem sqrtFixed_spec (nonneg : 0 ≤ v.toInt) :
    ∃ q : Nat, (q * q : Int) ≤ 100 * v.toInt ∧ 100 * v.toInt < (q + 1) * (q + 1)
      ∧ sqrtFixed v = wrap32 (if 100 * v.toInt - q * q > q then q + 1 else q) := by
  obtain ⟨lo, hi⟩ := isqrt_spec (scaled_lt_of_nonneg nonneg)
  rw [toInt_eq_toNat nonneg, sqrtFixed]
  refine ⟨isqrt (100 * v.toNat), mod_cast lo, mod_cast hi, congrArg wrap32 ?_⟩
  push_cast [← Nat.cast_lt (α := Int), Nat.cast_sub lo]
  rfl

/-! ### The operations on a given stack -/

/-- Where `rest` stands below the top `n` entries, the value has taken their place and `pc` has advanced (R12, R112). -/
theorem State.replaceTop_advance (n : Nat) (r : Word) (len : Nat) (below : s.stack.drop n = rest) :
    (s.replaceTop n r).advance len = { s with pc := s.pc + len, stack := r :: rest } := by
  subst below
  rfl

/-- With two entries the result takes their place, the second entry being the first operand (R161 to R163). -/
theorem binary_ok (f : Word → Word → Word) (two : s.stack = top :: second :: rest) :
    binary f s = .next { s with pc := s.pc + 1, stack := f second top :: rest } :=
  (peekTopTwo_ok two).trans (congrArg _ (State.replaceTop_advance 2 _ 1 (by simp [two])))

theorem binary_raises (f : Word → Word → Word) (short : s.stack.length < 2) :
    binary f s = raise .stackUnderflow s :=
  peekTopTwo_raises short

/-- A top that is not 0 divides the second entry (R164). -/
theorem execDiv_ok (two : s.stack = top :: second :: rest) (nonzero : top.toInt ≠ 0) :
    execDiv s = .next { s with pc := s.pc + 1, stack := divFixed second top :: rest } := by
  have word : top ≠ 0 := fun zero => nonzero (zero ▸ BitVec.toInt_zero)
  rw [execDiv, peekTopTwo_ok two, if_neg word, State.replaceTop_advance (rest := rest) 2 _ 1 (by simp [two])]

theorem execDiv_divideByZero (two : s.stack = top :: second :: rest) (zero : top.toInt = 0) :
    execDiv s = raise .divideByZero s := by
  have word : top = 0 := BitVec.eq_of_toInt_eq (zero.trans BitVec.toInt_zero.symm)
  rw [execDiv, peekTopTwo_ok two, if_pos word]

/-- A top that is not negative gives way to its root (R165). -/
theorem execSqrt_ok (one : s.stack = v :: rest) (nonneg : 0 ≤ v.toInt) :
    execSqrt s = .next { s with pc := s.pc + 1, stack := sqrtFixed v :: rest } := by
  rw [execSqrt, peekTop_ok one, if_pos nonneg, State.replaceTop_advance (rest := rest) 1 _ 1 (by simp [one])]

/-- A negative top gives way to the value that SQRT_NEG answers (R165, D16). -/
theorem execSqrt_value {r : Word} (one : s.stack = v :: rest) (neg : v.toInt < 0)
    (answer : Config.sqrtNeg v = .value r) :
    execSqrt s = .next { s with pc := s.pc + 1, stack := r :: rest } := by
  rw [execSqrt, peekTop_ok one, if_neg neg.not_ge, answer]
  exact congrArg _ (State.replaceTop_advance 1 r 1 (by simp [one]))

/-- A negative top stays where SQRT_NEG answers a fault code, which is raised (R165, R232, D16). -/
theorem execSqrt_fault {c : Cause} (one : s.stack = v :: rest) (neg : v.toInt < 0)
    (answer : Config.sqrtNeg v = .fault c) : execSqrt s = raise c s := by
  rw [execSqrt, peekTop_ok one, if_neg neg.not_ge, answer]

/-! ### The statements -/

/-- Settles O26: `addFixed` is the wrapped sum. -/
theorem addReplacesTheTopTwo : Obligations.AddReplacesTheTopTwo := fun _ =>
  ⟨rfl, fun _ _ _ => binary_ok addFixed, binary_raises addFixed⟩

/-- Settles O27: `subFixed` is the wrapped difference, `mulFixed` the wrapped product divided by the scale. -/
theorem subAndMulReplaceTheTopTwo : Obligations.SubAndMulReplaceTheTopTwo := fun _ =>
  ⟨rfl, rfl, fun _ _ _ => binary_ok subFixed, fun _ _ _ => binary_ok mulFixed,
    fun short => ⟨binary_raises subFixed short, binary_raises mulFixed short⟩⟩

/-- Settles O28: `divFixed` divides the wrapped, scaled second entry by the top. -/
theorem divReplacesTheTopTwo : Obligations.DivReplacesTheTopTwo := fun _ =>
  ⟨rfl, fun _ _ _ => execDiv_ok, fun _ _ _ => execDiv_divideByZero, peekTopTwo_raises⟩

/-- Settles O29: the `q` is the integer root that `sqrtFixed` rounds. -/
theorem sqrtOfANonNegativeValue : Obligations.SqrtOfANonNegativeValue := by
  intro s
  refine ⟨rfl, fun v rest one nonneg => ?_, peekTop_raises⟩
  obtain ⟨q, lo, hi, root⟩ := sqrtFixed_spec nonneg
  exact ⟨q, lo, hi, root ▸ execSqrt_ok one nonneg⟩

/-- Settles O30, by the two kinds of answer that SQRT_NEG can give. -/
theorem sqrtOfANegativeValueFollowsSqrtNeg : Obligations.SqrtOfANegativeValueFollowsSqrtNeg := by
  intro s v rest one neg
  split
  · exact execSqrt_value one neg ‹_›
  · exact execSqrt_fault one neg ‹_›

/-- Settles O31: behind the register check stands a write of the register's own new value. -/
theorem incRegister : Obligations.IncRegister := by
  intro w1 s
  refine ⟨rfl, fun r legal => ?_, withReg_raises⟩
  have run : exec (.incR w1) s = .next ((s.setReg r (incFixed (s.reg r))).advance 5) := withReg_ok legal
  exact ⟨_, run, s.setReg_reg_same r _, s.setReg_sameRegsBut r _, rfl⟩

end Sys2Proof.Machine
end

section
/-! Proofs for 42_control_transfer.md. First what the shared operations `jumpTo`, `callTo` and `jumpIf`, and `ret`, answer in each
of their cases. Then the twelve conditional jumps as one operation under six conditions, and the way back from a call. -/

namespace Sys2Proof.Machine

variable {s : State} {w1 top second link : Word} {rest : List Word} {tgt : Nat} {c : Cond}

/-! ### Jumps and calls -/

/-- A target inside the code becomes `pc` (R181, R187). -/
theorem jumpTo_ok (target : w1.toInt = tgt) (inside : tgt < s.codeLength) : jumpTo w1 s = .next { s with pc := tgt } :=
  withTarget_ok ⟨target, inside⟩

theorem jumpTo_raises (outside : w1.toInt < 0 ∨ (s.codeLength : Int) ≤ w1.toInt) :
    jumpTo w1 s = raise .controlTransferOutOfBounds s :=
  withTarget_raises outside

/-- Behind the target check the link goes on top of a stack below its capacity (R184, D7, D8). -/
theorem callTo_ok (target : w1.toInt = tgt) (inside : tgt < s.codeLength) (room : s.stack.length < s.stackCapacity) :
    callTo w1 s = .next { s with pc := tgt, stack := wrap32 (s.pc + 1) :: s.stack } :=
  (withTarget_ok ⟨target, inside⟩).trans (pushing_ok room)

/-- The target check comes before the stack check (R184). -/
theorem callTo_outside (outside : w1.toInt < 0 ∨ (s.codeLength : Int) ≤ w1.toInt) :
    callTo w1 s = raise .controlTransferOutOfBounds s :=
  withTarget_raises outside

theorem callTo_overflow (nonneg : 0 ≤ w1.toInt) (below : w1.toInt < s.codeLength)
    (full : s.stack.length = s.stackCapacity) : callTo w1 s = raise .stackOverflow s :=
  have target : w1.toInt = w1.toInt.toNat := (Int.toNat_of_nonneg nonneg).symm
  (withTarget_ok ⟨target, (Int.toNat_lt nonneg).2 below⟩).trans (pushing_raises full.ge)

/-- Settles O32. -/
theorem nopAdvances : Obligations.NopAdvances := fun _ => ⟨rfl, rfl⟩

/-- Settles O33: the code length is written to `pc` with no target check (D21). -/
theorem endHalts : Obligations.EndHalts := fun _ => ⟨rfl, rfl⟩

/-- Settles O34: both forms are `callTo`. -/
theorem callPushesItsLink : Obligations.CallPushesItsLink := fun _ _ =>
  ⟨rfl, rfl,
    fun _ target inside room => ⟨callTo_ok target inside room, callTo_ok target inside room⟩,
    fun outside => ⟨callTo_outside outside, callTo_outside outside⟩,
    fun nonneg below full => ⟨callTo_overflow nonneg below full, callTo_overflow nonneg below full⟩⟩

/-- Settles O36: both forms are `jumpTo`. -/
theorem jmpGoesToItsTarget : Obligations.JmpGoesToItsTarget := fun _ _ =>
  ⟨rfl, rfl,
    fun _ target inside => ⟨jumpTo_ok target inside, jumpTo_ok target inside⟩,
    fun outside => ⟨jumpTo_raises outside, jumpTo_raises outside⟩⟩

/-! ### The conditional jumps -/

/-- Where the condition holds, a conditional jump is the jump to its target (R189). -/
theorem jumpIf_taken (two : s.stack = top :: second :: rest) (holds : c.holds top second = true) :
    jumpIf c w1 s = jumpTo w1 s :=
  (peekTopTwo_ok two).trans (if_pos holds)

/-- Where it does not, `pc` advances past the instruction, and nothing depends on the target (R189, D22). -/
theorem jumpIf_notTaken (two : s.stack = top :: second :: rest) (fails : c.holds top second = false) :
    jumpIf c w1 s = .next { s with pc := s.pc + 5 } :=
  (peekTopTwo_ok two).trans (if_neg (Bool.eq_false_iff.1 fails))

theorem jumpIf_raises (short : s.stack.length < 2) : jumpIf c w1 s = raise .stackUnderflow s :=
  peekTopTwo_raises short

/-- A row of opcode, instruction and comparison is the conditional jump to `w1` under the condition `c`. -/
structure IsJumpIf (c : Cond) (w1 : Word) (row : Byte × Instr × (Int → Int → Bool)) : Prop where
  encoded : encode row.2.1 = row.1 :: wordBytes w1
  runs (s : State) : exec row.2.1 s = jumpIf c w1 s
  compares (top second : Word) : row.2.2 top.toInt second.toInt = c.holds top second

/-- The twelve forms are the six conditions of R190 to R201, each twice: the label form and the number form. -/
theorem conditionalForms_isJumpIf (w1 : Word) : ∀ row ∈ conditionalForms w1, ∃ c, IsJumpIf c w1 row := by
  simp only [conditionalForms, List.forall_mem_cons]
  refine ⟨⟨.a, ?_⟩, ⟨.a, ?_⟩, ⟨.ae, ?_⟩, ⟨.ae, ?_⟩, ⟨.b, ?_⟩, ⟨.b, ?_⟩, ⟨.be, ?_⟩, ⟨.be, ?_⟩, ⟨.e, ?_⟩, ⟨.e, ?_⟩,
    ⟨.ne, ?_⟩, ⟨.ne, ?_⟩, List.forall_mem_nil _⟩ <;> exact ⟨rfl, fun _ => rfl, fun _ _ => rfl⟩

/-- Settles O37: each form is `jumpIf` under its own condition. -/
theorem conditionalJumps : Obligations.ConditionalJumps := by
  intro w1 s row mem
  obtain ⟨c, encoded, runs, compares⟩ := conditionalForms_isJumpIf w1 row mem
  simp only [Raises, encoded, runs, compares, true_and]
  refine ⟨fun top second rest two => ⟨fun holds => ?_, jumpIf_notTaken two⟩, jumpIf_raises⟩
  rw [jumpIf_taken two holds]
  exact ⟨fun _ => jumpTo_ok, jumpTo_raises⟩

/-! ### Return -/

/-- With its target inside the code `ret` takes the link off and goes there (R186). -/
theorem execRet_ok (linked : s.stack = link :: rest) (target : (returnTarget link).toInt = tgt)
    (inside : tgt < s.codeLength) : execRet s = .next { s with pc := tgt, stack := rest } :=
  (peekTop_ok linked).trans ((withTarget_ok ⟨target, inside⟩).trans (popping_ok linked))

/-- With its target outside the code `ret` pops nothing (R186, R232). -/
theorem execRet_outside (linked : s.stack = link :: rest)
    (outside : (returnTarget link).toInt < 0 ∨ (s.codeLength : Int) ≤ (returnTarget link).toInt) :
    execRet s = raise .controlTransferOutOfBounds s :=
  (peekTop_ok linked).trans (withTarget_raises outside)

/-- Settles O35. -/
theorem retGoesToLinkPlusFour : Obligations.RetGoesToLinkPlusFour := fun _ =>
  ⟨rfl, fun _ _ linked => ⟨fun _ => execRet_ok linked, execRet_outside linked⟩, peekTop_raises⟩

/-- Within the bound on the code neither the link nor the sum of R186 wraps: the return target of a call's link is the byte behind
the call's operand (R202, C1, D7). -/
theorem returnTarget_link (bound : s.pc + 5 ≤ maxCodeLength) : (returnTarget s.link).toInt = (s.pc + 5 : Nat) := by
  unfold maxCodeLength at bound
  rw [State.link, returnTarget, wrap32_toInt (v := (s.pc + 1 : Nat)) (by omega), wrap32_toInt (by omega)]
  omega

/-- Settles O38: a call that does not fault has pushed its link, and that link's return target is inside the code. -/
theorem retReturnsBehindTheCall : Obligations.RetReturnsBehindTheCall := by
  intro w1 s t u bound inside called sameCause unfaulted sameStack sameCode
  rcases callTo_next called with ⟨n, -, -, rfl⟩ | ⟨c, rfl⟩
  · have linked : u.stack = s.link :: s.stack := sameStack
    have sameLength : u.codeLength = s.codeLength := congrArg List.length sameCode
    exact execRet_ok linked (returnTarget_link (inside.le.trans bound)) (sameLength ▸ inside)
  · cases sameCause.trans unfaulted

end Sys2Proof.Machine
end

section
/-! Proofs for 43_io_framebuffer.md. First the pixel write: one descriptor, one cell. Then the line of an output value: each
digit of it reads back, so its decimal numeral does. Then `in`, `out`, `draw` and `delay` in each of their cases. -/

namespace Sys2Proof.Machine

variable {s : State} {i : Instr} {d : Int} {p : Pixel} {rest : InputSource} {n : Word}

/-! ### The pixel write (R213) -/

/-- A descriptor that names a pixel goes on with it. -/
theorem withPixel_ok {k : Pixel → Result} (h : pixelOf d = some p) : withPixel d s k = k p := by
  simp [withPixel, h]

/-- Every other descriptor raises PixelOutOfBounds. -/
theorem withPixel_raises {k : Pixel → Result} (h : d < 0 ∨ 64 ≤ d / 10000 ∨ 64 ≤ d / 10 % 1000) :
    withPixel d s k = raise .pixelOutOfBounds s := by
  simp [withPixel, pixelOf_eq_none.2 h]

/-- In canonical form a cell reads the colour code last written to it (R67). -/
theorem State.writePixel_readCell_same (wf : Memory.wf fbCells s.fb) (byte : p.color < 256) :
    ((s.writePixel p).readCell p.cell).toNat = p.color := by
  have written : (s.writePixel p).readCell p.cell = BitVec.ofNat 8 p.color := Memory.read_write_same wf.1 _ _
  rw [written, BitVec.toNat_ofNat, Nat.mod_eq_of_lt byte]

/-- A write to a cell leaves every other one as it was (R67). -/
theorem State.writePixel_sameCellsBut (s : State) (p : Pixel) : SameCellsBut p.cell s (s.writePixel p) :=
  fun _ other => Memory.read_write_other s.fb _ other

/-- The instruction writes the one cell that an exact descriptor names: the two cases of R213 once the descriptor is known. -/
def WritesPixelAt (i : Instr) (d : Int) (s : State) : Prop :=
  (∀ px py : Nat, 0 ≤ d → d / 10000 = px → d / 10 % 1000 = py → px < 64 → py < 64 →
    ∃ t, exec i s = .next t ∧ ((t.readCell (64 * py + px)).toNat : Int) = d % 10 ∧ SameCellsBut (64 * py + px) s t
      ∧ t = { s with pc := s.pc + 5, fb := t.fb })
  ∧ (d < 0 ∨ 64 ≤ d / 10000 ∨ 64 ≤ d / 10 % 1000 → Raises i s .pixelOutOfBounds)

/-- An instruction that runs as the pixel write of a descriptor. -/
theorem writesPixelAt (wf : Memory.wf fbCells s.fb) (run : exec i s = pixelWrite d s) : WritesPixelAt i d s := by
  refine ⟨fun px py nonneg column row hx hy => ?_, fun outside => run.trans (withPixel_raises outside)⟩
  have digit : ((d % 10).toNat : Int) = d % 10 := Int.toNat_of_nonneg (by omega)
  have named : pixelOf d = some ⟨px, py, (d % 10).toNat⟩ :=
    pixelOf_eq_some.2 ⟨nonneg, column.symm, row.symm, digit, hx, hy⟩
  refine ⟨(s.writePixel ⟨px, py, (d % 10).toNat⟩).advance 5, run.trans (withPixel_ok named), ?_,
    s.writePixel_sameCellsBut ⟨px, py, (d % 10).toNat⟩, rfl⟩
  exact (congrArg Nat.cast (State.writePixel_readCell_same wf (by simp only; omega))).trans digit

/-- Settles O42: the descriptor is the operand word, or behind the register check the register divided by the scale. -/
theorem pixWritesOneCell : Obligations.PixWritesOneCell := by
  intro w1 s wf
  refine ⟨rfl, rfl, withReg_raises, fun i d form => ?_⟩
  rcases form with ⟨rfl, rfl⟩ | ⟨rfl, r, legal, rfl⟩
  · exact writesPixelAt wf rfl
  · exact writesPixelAt wf (withReg_ok legal)

/-! ### Decimal numerals (R211, D25) -/

/-- One character reads back, past the 48 of `'0'`, as the digit it shows, and is `'0'` for the digit 0 only. -/
theorem digitChar_spec (k : Nat) :
    (digitChar k).isDigit = true ∧ (digitChar k).toNat - 48 = k % 10 ∧ (digitChar k = '0' → k % 10 = 0) := by
  have ofDigit : ∀ r < 10, (Char.ofNat (48 + r)).isDigit = true ∧ (Char.ofNat (48 + r)).toNat - 48 = r
      ∧ (Char.ofNat (48 + r) = '0' → r = 0) := by decide
  exact ofDigit (k % 10) (Nat.mod_lt k (by decide))

theorem decimalValue_digit (k : Nat) : decimalValue [digitChar k] = some (k % 10) := by
  obtain ⟨isDigit, value, -⟩ := digitChar_spec k
  simp [decimalValue, isDigit, value]

/-- One more digit behind a numeral. -/
theorem decimalValue_concat {digits : List Char} {m : Nat} (h : decimalValue digits = some m) (k : Nat) :
    decimalValue (digits ++ [digitChar k]) = some (10 * m + k % 10) := by
  obtain ⟨isDigit, value, -⟩ := digitChar_spec k
  unfold decimalValue at h ⊢
  split at h
  · next numeral =>
    cases h
    simpa [isDigit, value] using numeral.2
  · cases h

/-- The numeral of a number reads back as the number, if its digits suffice. -/
theorem decimalValue_decimalDigits {fuel k : Nat} (h : k < 10 ^ (fuel + 1)) :
    decimalValue (decimalDigits (fuel + 1) k) = some k := by
  induction fuel generalizing k with
  | zero =>
    rw [decimalDigits, if_pos (by simpa using h), decimalValue_digit, Nat.mod_eq_of_lt (by simpa using h)]
  | succ fuel ih =>
    rw [decimalDigits]
    split
    · next small => rw [decimalValue_digit, Nat.mod_eq_of_lt small]
    · rw [decimalValue_concat (ih (by omega)), Nat.div_add_mod]

/-- The numeral of a number above 0 does not begin with a zero, if its digits suffice. -/
theorem decimalDigits_head {fuel k : Nat} (pos : 0 < k) (h : k < 10 ^ fuel) :
    ∃ c tail, decimalDigits fuel k = c :: tail ∧ c ≠ '0' := by
  induction fuel generalizing k with
  | zero => omega
  | succ fuel ih =>
    rw [decimalDigits]
    split
    · refine ⟨_, [], rfl, fun zero => ?_⟩
      have := (digitChar_spec k).2.2 zero
      omega
    · obtain ⟨c, tail, digits, nonzero⟩ := ih (k := k / 10) (by omega) (by omega)
      exact ⟨c, tail ++ [digitChar k], by rw [digits, List.cons_append], nonzero⟩

/-- No leading zeros: a numeral of more than one digit does not begin with a zero. -/
theorem decimalDigits_noLeadingZero {fuel k : Nat} (h : k < 10 ^ fuel) (long : 1 < (decimalDigits fuel k).length) :
    (decimalDigits fuel k).head? ≠ some '0' := by
  rcases Nat.eq_zero_or_pos k with rfl | pos
  · cases fuel <;> simp [decimalDigits] at long
  · obtain ⟨c, tail, digits, nonzero⟩ := decimalDigits_head pos h
    simpa [digits] using nonzero

/-- Settles O45: a magnitude is at most `2^31`, so ten digits suffice for its integer part. -/
theorem outLineShowsTheValue : Obligations.OutLineShowsTheValue := by
  intro v
  have bound : v.toInt.natAbs / 100 < 10 ^ (9 + 1) := by
    have := v.toInt_lt
    have := v.le_toInt
    omega
  refine ⟨decimalDigits 10 (v.toInt.natAbs / 100), _, _, _, _, _, rfl, decimalValue_decimalDigits bound,
    decimalDigits_noLeadingZero bound, decimalValue_digit _, decimalValue_digit _, ?_⟩
  omega

/-! ### in, out, draw, delay -/

/-- With a value to come the input port presents it, and the transaction is logged (R53, R73). -/
theorem receiving_ok {k : Word → State → Result} (h : s.input.present = some (n, rest)) :
    receiving s k = k n ((s.setInput rest).emit (.input n)) := by
  simp [receiving, h]

/-- With no value to come the machine waits (R276). -/
theorem receiving_waits {k : Word → State → Result} (h : s.input.present = none) :
    receiving s k = .fault .waitingForInput := by
  simp [receiving, h]

/-- Below the capacity the value presented is pushed scaled (R210, D24). -/
theorem execIn_ok (room : s.stack.length < s.stackCapacity) (h : s.input.present = some (n, rest)) :
    execIn s = .next { s with
      pc := s.pc + 1, stack := wrap32 (100 * n.toInt) :: s.stack, input := rest, events := s.events ++ [.input n] } :=
  (if_pos room).trans ((receiving_ok h).trans (pushing_ok room))

/-- A full stack faults before any value is consumed (R210, D24). -/
theorem execIn_overflow (full : s.stack.length = s.stackCapacity) : execIn s = raise .stackOverflow s :=
  if_neg full.not_lt

/-- Settles O39, by what the input port presents in each form of the stream. -/
theorem inReadsOneValue : Obligations.InReadsOneValue := by
  refine fun s => ⟨rfl, fun n later beyond room queued => ?_, fun k room endless => ?_, execIn_overflow,
    fun room ended => ?_⟩
  · exact execIn_ok room (queued ▸ InputSource.present_queued n later beyond)
  · exact execIn_ok room (endless ▸ InputSource.present_endless k)
  · exact (if_pos room).trans (receiving_waits (ended ▸ InputSource.present_ended))

/-- Settles O41: the top is read in place. -/
theorem outEmitsTheTop : Obligations.OutEmitsTheTop := fun _ =>
  ⟨rfl, fun _ _ => peekTop_ok, peekTop_raises⟩

theorem frameCells_length (frame : List Host.Cell) : (frameCells frame).length = 4096 :=
  (List.length_map _).trans List.length_range

/-- Cell `k` of a frame is the cell at the flat index `k` (R36, D27). -/
theorem frameCells_getElem? (frame : List Host.Cell) {k : Nat} (inside : k < fbCells) :
    (frameCells frame)[k]? = some (Memory.read frame k) := by
  rw [frameCells, List.getElem?_map, List.getElem?_range inside, Option.map_some]

/-- Settles O43. -/
theorem drawEmitsTheFrame : Obligations.DrawEmitsTheFrame := by
  refine fun s => ⟨rfl, rfl, frameCells_length s.fb, fun x y hx hy => frameCells_getElem? s.fb ?_⟩
  show 64 * y + x < 64 * 64
  omega

/-- Settles O44. -/
theorem delayEmitsItsOperand : Obligations.DelayEmitsItsOperand := fun w1 _ =>
  ⟨rfl, rfl, Int.ofNat_toNat w1.toInt⟩

end Sys2Proof.Machine
end

section
/-! Proofs for 60_exceptions.md. First that a fault is precise: an instruction writes `cause` alone or not at all. Then the
faults that can come out of an instruction, with one rule per check: each check puts its own fault in front of those of what
comes behind it, so the rows of R230's table arise in the order in which the checks are made (R233). -/

namespace Sys2Proof.Machine

variable {s t : State} {i : Instr} {c : Cause} {cs : List Cause}

/-! ### Precision (R231, R232) -/

/-- However an instruction finishes, it has left `cause` as it was or has written nothing else. -/
theorem Finishes.sameCause_or_raised (h : Finishes i s t) : t.cause = s.cause ∨ ∃ c, t = s.setCause c := by
  cases h with
  | raised c => exact .inr ⟨c, rfl⟩
  | advanced writes | transferred writes =>
    obtain ⟨-, -, -, same⟩ := writes.sameControl
    exact .inl same
  | halted => exact .inl rfl

/-- Settles O15: of the ways in which a step ends, the normal halt leaves `cause` alone, a fetch fault writes only `cause`, and
an instruction does one or the other. -/
theorem faultsArePrecise : Obligations.FaultsArePrecise := by
  intro s t h changed
  obtain ⟨running, unfaulted, ⟨-, rfl⟩ | raised | ⟨i, len, -, ran⟩⟩ := step_next h
  · exact absurd rfl changed
  · exact ⟨running, unfaulted, raised⟩
  · exact ⟨running, unfaulted, (exec_finishes ran).sameCause_or_raised.resolve_left changed⟩

/-! ### The faults that come out of a check (R230) -/

/-- Whatever next state the outcome is, its cause is none or one of the list. A stop and a refusal have no cause. -/
def FaultsIn (cs : List Cause) (r : Result) : Prop := ∀ t c, r = .next t → t.cause = some c → c ∈ cs

/-- A next state without a cause. -/
theorem faultsIn_next (unfaulted : t.cause = none) : FaultsIn cs (.next t) := by
  rintro _ c ⟨⟩ faulted
  simp [unfaulted] at faulted

/-- A raise of the first fault of the list. -/
theorem faultsIn_raise : FaultsIn (c :: cs) (raise c s) := by
  rintro _ _ ⟨⟩ ⟨⟩
  exact List.mem_cons_self

/-- The rule all checks share: an outcome that raises `c`, or is that of a continuation with faults in `cs`. -/
theorem faultsIn_cons {r : Result}
    (inv : ∀ t, r = .next t → (∃ k, FaultsIn cs k ∧ k = .next t) ∨ t = s.setCause c) : FaultsIn (c :: cs) r := by
  intro t d h faulted
  rcases inv t h with ⟨k, ok, hk⟩ | rfl
  · exact List.mem_cons_of_mem c (ok t d hk faulted)
  · exact faultsIn_raise _ d rfl faulted

theorem pushing_faultsIn {v : Word} {k : State → Result} (ok : FaultsIn cs (k (s.setStack (v :: s.stack)))) :
    FaultsIn (.stackOverflow :: cs) (pushing v s k) :=
  faultsIn_cons fun _ h => (pushing_next h).imp (fun ⟨_, hk⟩ => ⟨_, ok, hk⟩) And.right

theorem popping_faultsIn {k : Word → State → Result} (ok : ∀ v rest, FaultsIn cs (k v (s.setStack rest))) :
    FaultsIn (.stackUnderflow :: cs) (popping s k) :=
  faultsIn_cons fun _ h => (popping_next h).imp (fun ⟨v, rest, _, hk⟩ => ⟨_, ok v rest, hk⟩) And.right

theorem peekTop_faultsIn {k : Word → Result} (ok : ∀ v rest, s.stack = v :: rest → FaultsIn cs (k v)) :
    FaultsIn (.stackUnderflow :: cs) (peekTop s k) :=
  faultsIn_cons fun _ h => (peekTop_next h).imp (fun ⟨v, rest, hs, hk⟩ => ⟨_, ok v rest hs, hk⟩) And.right

theorem peekTopTwo_faultsIn {k : Word → Word → Result} (ok : ∀ v u, FaultsIn cs (k v u)) :
    FaultsIn (.stackUnderflow :: cs) (peekTopTwo s k) :=
  faultsIn_cons fun _ h => (peekTopTwo_next h).imp (fun ⟨v, u, _, _, hk⟩ => ⟨_, ok v u, hk⟩) And.right

theorem withReg_faultsIn {w : Word} {k : Fin 4 → Result} (ok : ∀ r, FaultsIn cs (k r)) :
    FaultsIn (.invalidRegister :: cs) (withReg w s k) :=
  faultsIn_cons fun _ h => (withReg_next h).imp (fun ⟨r, _, hk⟩ => ⟨_, ok r, hk⟩) And.right

theorem withIndex_faultsIn {index : Int} {k : Nat → Result} (ok : ∀ n, FaultsIn cs (k n)) :
    FaultsIn (.memoryOutOfBounds :: cs) (withIndex index s k) :=
  faultsIn_cons fun _ h => (withIndex_next h).imp (fun ⟨n, _, hk⟩ => ⟨_, ok n, hk⟩) And.right

theorem withTarget_faultsIn {tgt : Int} {k : Nat → Result} (ok : ∀ n, FaultsIn cs (k n)) :
    FaultsIn (.controlTransferOutOfBounds :: cs) (withTarget tgt s k) :=
  faultsIn_cons fun _ h => (withTarget_next h).imp (fun ⟨n, _, hk⟩ => ⟨_, ok n, hk⟩) And.right

theorem withPixel_faultsIn {d : Int} {k : Pixel → Result} (ok : ∀ p, FaultsIn cs (k p)) :
    FaultsIn (.pixelOutOfBounds :: cs) (withPixel d s k) :=
  faultsIn_cons fun _ h => (withPixel_next h).imp (fun ⟨p, _, hk⟩ => ⟨_, ok p, hk⟩) And.right

/-- To receive a value is no check: the machine waits where there is none (R276). -/
theorem receiving_faultsIn {k : Word → State → Result}
    (ok : ∀ n rest, FaultsIn cs (k n ((s.setInput rest).emit (.input n)))) : FaultsIn cs (receiving s k) := by
  intro t d h
  obtain ⟨n, rest, -, hk⟩ := receiving_next h
  exact ok n rest t d hk

/-! ### The faults of each instruction -/

section Unfaulted

variable (unfaulted : s.cause = none)
include unfaulted

theorem pushAndAdvance_faultsIn (v : Word) (len : Nat) : FaultsIn [.stackOverflow] (pushAndAdvance v len s) :=
  pushing_faultsIn (faultsIn_next unfaulted)

theorem popToData_faultsIn (n len : Nat) : FaultsIn [.stackUnderflow] (popToData n len s) :=
  popping_faultsIn fun _ _ => faultsIn_next unfaulted

theorem binary_faultsIn (f : Word → Word → Word) : FaultsIn [.stackUnderflow] (binary f s) :=
  peekTopTwo_faultsIn fun _ _ => faultsIn_next unfaulted

theorem execDiv_faultsIn : FaultsIn [.stackUnderflow, .divideByZero] (execDiv s) := by
  refine peekTopTwo_faultsIn fun v u => ?_
  split
  · exact faultsIn_raise
  · exact faultsIn_next unfaulted

theorem jumpTo_faultsIn (w1 : Word) : FaultsIn [.controlTransferOutOfBounds] (jumpTo w1 s) :=
  withTarget_faultsIn fun _ => faultsIn_next unfaulted

theorem callTo_faultsIn (w1 : Word) : FaultsIn [.controlTransferOutOfBounds, .stackOverflow] (callTo w1 s) :=
  withTarget_faultsIn fun _ => pushing_faultsIn (faultsIn_next unfaulted)

theorem jumpIf_faultsIn (cond : Cond) (w1 : Word) :
    FaultsIn [.stackUnderflow, .controlTransferOutOfBounds] (jumpIf cond w1 s) := by
  refine peekTopTwo_faultsIn fun v u => ?_
  split
  · exact jumpTo_faultsIn unfaulted w1
  · exact faultsIn_next unfaulted

/-- The link that `ret` has looked at is there to be popped (R186). -/
theorem execRet_faultsIn : FaultsIn [.stackUnderflow, .controlTransferOutOfBounds] (execRet s) := by
  refine peekTop_faultsIn fun link rest linked => withTarget_faultsIn fun n => ?_
  rw [popping_ok linked]
  exact faultsIn_next unfaulted

theorem pixelWrite_faultsIn (d : Int) : FaultsIn [.pixelOutOfBounds] (pixelWrite d s) :=
  withPixel_faultsIn fun _ => faultsIn_next unfaulted

theorem execIn_faultsIn : FaultsIn [.stackOverflow] (execIn s) := by
  unfold execIn
  split
  · exact receiving_faultsIn fun _ _ => pushing_faultsIn (faultsIn_next unfaulted)
  · exact faultsIn_raise

/-- The checks of each instruction are the row of its opcode; `sqrt` is left out, since SQRT_NEG is open (R165). -/
theorem exec_faultsIn (notSqrt : i ≠ .sqrt) : FaultsIn (mayRaise i) (exec i s) := by
  cases i with
  | sqrt => exact absurd rfl notSqrt
  | nop | end_ | draw | delayN _ => exact faultsIn_next unfaulted
  | add | sub | mul => exact binary_faultsIn unfaulted _
  | div => exact execDiv_faultsIn unfaulted
  | ret => exact execRet_faultsIn unfaulted
  | in_ => exact execIn_faultsIn unfaulted
  | out => exact peekTop_faultsIn fun _ _ _ => faultsIn_next unfaulted
  | incR _ => exact withReg_faultsIn fun _ => faultsIn_next unfaulted
  | popR _ => exact withReg_faultsIn fun _ => popping_faultsIn fun _ _ => faultsIn_next unfaulted
  | pixN _ => exact pixelWrite_faultsIn unfaulted _
  | pixR _ => exact withReg_faultsIn fun _ => pixelWrite_faultsIn unfaulted _
  | pushN _ => exact pushAndAdvance_faultsIn unfaulted _ _
  | pushR _ => exact withReg_faultsIn fun _ => pushAndAdvance_faultsIn unfaulted _ _
  | pushMemK _ => exact withIndex_faultsIn fun _ => pushAndAdvance_faultsIn unfaulted _ _
  | pushMemR _ | pushMemRD _ _ =>
    exact withReg_faultsIn fun _ => withIndex_faultsIn fun _ => pushAndAdvance_faultsIn unfaulted _ _
  | popMemK _ => exact withIndex_faultsIn fun _ => popToData_faultsIn unfaulted _ _
  | popMemR _ | popMemRD _ _ =>
    exact withReg_faultsIn fun _ => withIndex_faultsIn fun _ => popToData_faultsIn unfaulted _ _
  | callLabel _ | callN _ => exact callTo_faultsIn unfaulted _
  | jmpLabel _ | jmpN _ => exact jumpTo_faultsIn unfaulted _
  | jaLabel _ | jaN _ | jaeLabel _ | jaeN _ | jbLabel _ | jbN _ | jbeLabel _ | jbeN _ | jeLabel _ | jeN _ | jneLabel _
  | jneN _ => exact jumpIf_faultsIn unfaulted _ _

end Unfaulted

/-- Settles O16: the faults that come out of an instruction's checks are those of its row. -/
theorem faultsAreThoseOfTheTable : Obligations.FaultsAreThoseOfTheTable :=
  fun _ _ t c notSqrt unfaulted => exec_faultsIn unfaulted notSqrt t c

end Sys2Proof.Machine
end

section
/-! Proofs for 70_reset_and_hazards.md. First the values after reset and what is observed of a state. Then the ends of a run:
a stopped machine takes no step, a machine with the invariant that has not ended takes one, and since a step has one outcome a
run has at most one end. -/

namespace Sys2Proof.Machine

variable {s t u : State}

/-! ### Reset (R270) -/

section Reset

variable (code : List Byte) (input : InputSource) (capacity : Nat)

@[simp] theorem State.boot_reg (r : Fin 4) : (State.boot code input capacity).reg r = 0 := by
  simp [State.reg]

@[simp] theorem State.boot_readData (i : Nat) : (State.boot code input capacity).readData i = 0 := rfl

@[simp] theorem State.boot_readCell (i : Nat) : (State.boot code input capacity).readCell i = 0 := rfl

@[simp] theorem State.boot_causeCode : (State.boot code input capacity).causeCode = 0 := rfl

@[simp] theorem State.boot_running : (State.boot code input capacity).running = true := rfl

@[simp] theorem State.boot_statusPort : (State.boot code input capacity).statusPort = 0 := by
  simp [State.statusPort, State.faulted]

end Reset

/-- Settles O7. -/
theorem resetLeavesTheResetValues : Obligations.ResetLeavesTheResetValues := fun code input capacity =>
  ⟨State.boot_reg code input capacity, rfl, rfl, State.boot_readData code input capacity,
    State.boot_readCell code input capacity, rfl, State.boot_causeCode code input capacity,
    State.boot_running code input capacity, State.boot_statusPort code input capacity, rfl, rfl⟩

/-- A framebuffer of zero cells holds colour codes (R36). -/
theorem frameOk_nil : frameOk [] := ⟨Memory.wf_nil, by simp⟩

/-- Settles O47: the memories are empty lists, `pc` is 0, nothing is emitted, and the machine runs. -/
theorem resetHasTheInvariant : Obligations.ResetHasTheInvariant := fun code _ _ bound =>
  { depth_le := Nat.zero_le _
    data_wf := Memory.wf_nil
    frame_ok := frameOk_nil
    frames_ok := by simp
    code_le := bound
    pc_le := Nat.zero_le code.length
    halted_not_faulted := fun _ => rfl
    halted_at_end := by simp }

/-! ### The observable result (R274) -/

/-- Of the port transactions, the receipts of a value are what is not observed (log 10). -/
theorem Event.observable_iff {e : Event} : e.observable = true ↔ ∀ n, e ≠ .input n := by
  cases e <;> simp [Event.observable]

/-- Settles O49: the fields are copied, and the events are the observable ones of the log. -/
theorem theObservationIsStateStatusAndEvents : Obligations.TheObservationIsStateStatusAndEvents := by
  refine ⟨fun s => ⟨⟨rfl, rfl, rfl, rfl, rfl, rfl, rfl, rfl⟩, rfl, List.filter_sublist, fun n observed => ?_,
    fun e output => ?_⟩, fun _ _ _ => rfl⟩
  · obtain ⟨-, observable⟩ := List.mem_filter.1 observed
    exact Event.observable_iff.1 observable n rfl
  · exact List.count_filter (Event.observable_iff.2 output)

/-! ### A stopped machine (R275) -/

theorem step_of_halted (halted : s.halted = true) : step s = .fault .halted := by
  simp [step, halted]

theorem step_of_faulted {c : Cause} (unhalted : s.halted = false) (faulted : s.cause = some c) :
    step s = .fault (.faulted c) := by
  simp [step, unhalted, faulted]

/-- Settles O14. -/
theorem aStoppedMachineTakesNoStep : Obligations.AStoppedMachineTakesNoStep :=
  fun _ => ⟨step_of_halted, fun _ => step_of_faulted⟩

theorem normallyHalted.step_eq (h : normallyHalted s) : step s = .fault .halted := step_of_halted h.1

theorem faultStopped.step_eq (h : faultStopped s) : ∃ c, step s = .fault (.faulted c) := by
  obtain ⟨unhalted, faulted⟩ := h
  obtain ⟨c, hc⟩ := Option.ne_none_iff_exists'.1 faulted
  exact ⟨c, step_of_faulted unhalted hc⟩

/-- At an end of R274 the machine takes no step. -/
theorem step_ne_next_of_ended (h : ended s) : step s ≠ .next t := by
  rcases h with halted | stopped | waits
  · simp [halted.step_eq]
  · obtain ⟨c, hc⟩ := stopped.step_eq
    simp [hc]
  · simp [show step s = .fault .waitingForInput from waits]

/-! ### The three ends exclude each other (R274) -/

theorem normallyHalted.not_faultStopped (h : normallyHalted s) : ¬ faultStopped s := fun stopped =>
  stopped.2 h.2

/-- A halted machine does not wait for input (R276). -/
theorem normallyHalted.not_stuck (h : normallyHalted s) : ¬ stuck s := by
  simp [stuck, h.step_eq]

/-- A faulted machine does not wait for input (R276). -/
theorem faultStopped.not_stuck (h : faultStopped s) : ¬ stuck s := by
  obtain ⟨c, hc⟩ := h.step_eq
  simp [stuck, hc]

/-! ### Progress: a machine that has not ended takes a step -/

/-- `in` completes, or waits where the port presents no value (R276). -/
theorem execIn_next_or_waits (s : State) : (∃ t, execIn s = .next t) ∨ execIn s = .fault .waitingForInput := by
  rcases Nat.lt_or_ge s.stack.length s.stackCapacity with room | full
  · cases presented : s.input.present with
    | some p => exact .inl ⟨_, execIn_ok room presented⟩
    | none => exact .inr ((if_pos room).trans (receiving_waits presented))
  · exact .inl ⟨_, if_neg full.not_gt⟩

/-- No instruction is refused, and the one stop in an instruction is the wait of `in`. -/
theorem exec_next_or_waits (i : Instr) (s : State) : (∃ t, exec i s = .next t) ∨ exec i s = .fault .waitingForInput := by
  by_cases hi : i = .in_
  · subst hi
    exact execIn_next_or_waits s
  · obtain ⟨t, ran, -⟩ := exec_sameInput hi s
    exact .inl ⟨t, ran⟩

/-- A running machine steps or is stuck: the fetch faults and the normal halt are next states (R111, R113). -/
theorem next_or_stuck_of_running (running : s.halted = false) (unfaulted : s.cause = none) :
    (∃ t, step s = .next t) ∨ stuck s := by
  rw [stuck, step_running running unfaulted, dispatch]
  split
  · exact exec_next_or_waits _ s
  · exact .inl ⟨_, rfl⟩
  · exact .inl ⟨_, rfl⟩
  · exact .inl ⟨_, rfl⟩

/-- With the invariant a machine steps or has ended, since a halted machine with it is not faulted (R275). -/
theorem Inv.next_or_ended (h : Inv s) : (∃ t, step s = .next t) ∨ ended s := by
  cases halted : s.halted with
  | true => exact .inr (.inl ⟨halted, h.halted_not_faulted halted⟩)
  | false =>
    by_cases unfaulted : s.cause = none
    · exact (next_or_stuck_of_running halted unfaulted).imp_right fun waits => .inr (.inr waits)
    · exact .inr (.inr (.inl ⟨halted, unfaulted⟩))

/-! ### Runs (R274) -/

/-- The invariant holds all along a run. -/
theorem Reaches.inv (hr : Reaches s t) (hs : Inv s) : Inv t :=
  hr.keeps (everyStepKeepsTheInvariant _ _) hs

/-- From an end no other state is reached. -/
theorem Reaches.eq_of_ended (hr : Reaches s t) (h : ended s) : t = s := by
  cases hr with
  | refl => rfl
  | step first _ => exact absurd first (step_ne_next_of_ended h)

/-- A run has at most one end, since each of its steps has one outcome. -/
theorem Reaches.ended_unique (ht : Reaches s t) (hu : Reaches s u) (endedT : ended t) (endedU : ended u) : t = u := by
  induction ht with
  | refl => exact (hu.eq_of_ended endedT).symm
  | step first _ ih =>
    cases hu with
    | refl => exact absurd first (step_ne_next_of_ended endedU)
    | step first' rest =>
      obtain rfl := Host.Outcome.next.inj (first.symm.trans first')
      exact ih rest endedT

theorem hangs.not_ended (h : hangs s) (hr : Reaches s t) : ¬ ended t := by
  obtain ⟨u, next⟩ := h t hr
  exact fun hend => step_ne_next_of_ended hend next

/-- A run that does not go on for ever reaches a state without a next one, which by the invariant is an end. -/
theorem Inv.hangs_or_ends (hs : Inv s) : hangs s ∨ ∃ t, Reaches s t ∧ ended t := by
  by_cases forever : hangs s
  · exact .inl forever
  · simp only [hangs, not_forall] at forever
    obtain ⟨t, hr, noNext⟩ := forever
    exact .inr ⟨t, hr, (hr.inv hs).next_or_ended.resolve_left noNext⟩

/-- Settles O48: the run hangs or ends by progress, it has one end by determinism, and the three ends
exclude each other. -/
theorem aRunEndsInExactlyOneOfFourWays : Obligations.ARunEndsInExactlyOneOfFourWays := by
  refine fun s hs => ⟨hs.hangs_or_ends, fun h t => h.not_ended, fun t u => Reaches.ended_unique,
    fun t hr => ⟨fun halted => ?_, fun stopped => ?_, fun waits => ?_⟩⟩
  · exact ⟨(hr.inv hs).halted_at_end halted.1, halted.not_faultStopped, halted.not_stuck⟩
  · exact ⟨fun halted => halted.not_faultStopped stopped, stopped.not_stuck⟩
  · exact ⟨fun halted => halted.not_stuck waits, fun stopped => stopped.not_stuck waits⟩

end Sys2Proof.Machine
end

section
/-! Samples of 30_encoding.md: byte strings written out from the encodings of R140 to R216. Nothing runs the decoder on them:
`decodeEncode` decodes every encoding, so what is left of a sample is that its bytes are the encoding of its instruction. -/

namespace Sys2Proof

/-- Bytes that are the encoding of an instruction decode to it, with their whole length. -/
theorem decode_of_encode_eq {bytes : List Byte} {i : Instr} (h : encode i = bytes) :
    decode bytes = .instr i bytes.length := by
  simpa only [List.append_nil, h] using decodeEncode i []

/-- Settles O4: the encoder writes the bytes of each sample, its opcode and then its operand words, least significant byte
first. -/
theorem sampleWordsDecode : Obligations.SampleWordsDecode := by
  have push : encode (.pushN 5) = [0x01, 0x05, 0x00, 0x00, 0x00] := rfl
  have pushMem : encode (.pushMemRD 1 3) = [0x2B, 0x01, 0x00, 0x00, 0x00, 0x03, 0x00, 0x00, 0x00] := rfl
  have pop : encode (.popR 0) = [0x02, 0x00, 0x00, 0x00, 0x00] := rfl
  have popMem : encode (.popMemRD 3 (-1)) = [0x36, 0x03, 0x00, 0x00, 0x00, 0xFF, 0xFF, 0xFF, 0xFF] := rfl
  have inc : encode (.incR 2) = [0x0F, 0x02, 0x00, 0x00, 0x00] := rfl
  have ja : encode (.jaLabel 0) = [0x16, 0x00, 0x00, 0x00, 0x00] := rfl
  have pix : encode (.pixN 630637) = [0x10, 0x6D, 0x9F, 0x09, 0x00] := rfl
  have delay : encode (.delayN 100) = [0x13, 0x64, 0x00, 0x00, 0x00] := rfl
  have noOperand : ∀ i : Instr, i.operands = [] → decode [BitVec.ofNat 8 i.opcode] = .instr i 1 :=
    fun i h => decode_of_encode_eq (by rw [encode, h, List.flatMap_nil])
  exact ⟨decode_of_encode_eq push, decode_of_encode_eq pushMem, decode_of_encode_eq pop, decode_of_encode_eq popMem,
    noOperand .add rfl, noOperand .sqrt rfl, decode_of_encode_eq inc, noOperand .nop rfl, noOperand .ret rfl,
    decode_of_encode_eq ja, decode_of_encode_eq pix, noOperand .draw rfl, decode_of_encode_eq delay⟩

end Sys2Proof
end
